-- ==== Sys2Proof/Word.lean ====
section
/-!
DEFINITION. The words of the DS3231 time/alarm codec: a byte of the device register space and the
5-bit command word.
-/

namespace Sys2Proof

/-- One device register byte; bit 7 is the most significant (00_scope R8, 20_memory R32). -/
abbrev Byte := BitVec 8

/-- The command word `cmd[4:0]`: bits 3:0 are `op`, bit 4 is `dysel` (30_encoding R47). -/
abbrev Cmd := BitVec 5

end Sys2Proof
end

