-- ==== Sys2Proof/Syntax.lean ====
section
/-!
DEFINITION. What the codec and its caller speak about: timestamps, the eleven operations of
spec/opcode_table.json, and the steps of the host harness (30_encoding R70, R71).
-/

namespace Sys2Proof

/-- The one implementation parameter, `DecodeMaskProfile` (00_scope R6): which bits TDEC takes as
the tens digit of seconds, minutes, day-of-month and month. -/
inductive DecodeMaskProfile where
  | narrow
  | wide
  deriving DecidableEq, Repr, Inhabited

/-- The tagged hour (10_state R17). Only the 12-hour variant has a meridiem; `pm = true` is PM. -/
inductive Hour where
  | h24 (h : Nat)
  | h12 (h : Nat) (pm : Bool)
  deriving DecidableEq, Repr, Inhabited

/-- The value `h` of an hour, which the contract check looks at in both variants (R73). -/
def Hour.value : Hour → Nat
  | .h24 h => h
  | .h12 h _ => h

/-- The source's three separate fields as the tagged union: `isPM` is discarded in 24-hour mode
(10_state R17). -/
def Hour.ofSource (mode12 : Bool) (hours : Nat) (isPM : Bool) : Hour :=
  if mode12 then .h12 hours isPM else .h24 hours

/-- The Timestamp, both the input `ts` (10_state R16) and the output `dec` (R21). Numeric fields
are natural numbers (92_eei_decisions D26). -/
structure Timestamp where
  seconds : Nat
  minutes : Nat
  hour : Hour
  dayOfWeek : Nat
  dayOfMonth : Nat
  month : Nat
  year : Nat
  isCentury : Bool
  deriving DecidableEq, Repr, Inhabited

/-- The seven numeric fields a contract check can name (40_time_codec R73). -/
inductive Field where
  | seconds
  | minutes
  | hours
  | dayOfWeek
  | dayOfMonth
  | month
  | year
  deriving DecidableEq, Repr

/-- The seven register bytes `rb[0..6]` of the time block (10_state R15, R19; 20_memory R33). -/
structure RegBytes where
  b0 : Byte
  b1 : Byte
  b2 : Byte
  b3 : Byte
  b4 : Byte
  b5 : Byte
  b6 : Byte
  deriving DecidableEq, Repr, Inhabited

/-- The bytes in ascending index, which is ascending register address (20_memory R36). -/
def RegBytes.toList (rb : RegBytes) : List Byte :=
  [rb.b0, rb.b1, rb.b2, rb.b3, rb.b4, rb.b5, rb.b6]

/-- The two alarm channels. -/
inductive Channel where
  | alarm1
  | alarm2
  deriving DecidableEq, Repr

/-- A field position of an alarm block: S, M, H and D of 41_alarm_codec R86. -/
inductive Position where
  | seconds
  | minutes
  | hours
  | dayDate
  deriving DecidableEq, Repr

/-- The eleven operations, one constructor per row of spec/opcode_table.json. `dysel` is
`cmd[4]` where the operation ignores it (30_encoding R49); it is kept so that the command word,
which a fault records (60_exceptions R120), can be written back. -/
inductive Instr where
  | tenc (dysel : Bool)
  | tdec (dysel : Bool)
  | a1S (dysel : Bool)
  | a1Ms (dysel : Bool)
  | a1Hms (dysel : Bool)
  | a1DhmsDay
  | a1DhmsDate
  | a2M (dysel : Bool)
  | a2Hm (dysel : Bool)
  | a2DhmDay
  | a2DhmDate
  deriving DecidableEq, Repr

/-- The mnemonic of each operation (00_scope R12, 30_encoding R70). -/
def Instr.mnemonic : Instr → String
  | .tenc _ => "TENC"
  | .tdec _ => "TDEC"
  | .a1S _ => "A1_S"
  | .a1Ms _ => "A1_MS"
  | .a1Hms _ => "A1_HMS"
  | .a1DhmsDay => "A1_DHMS_DAY"
  | .a1DhmsDate => "A1_DHMS_DATE"
  | .a2M _ => "A2_M"
  | .a2Hm _ => "A2_HM"
  | .a2DhmDay => "A2_DHM_DAY"
  | .a2DhmDate => "A2_DHM_DATE"

/-- The timestamp fields an operation reads, which are also the fields its contract check covers:
all seven for TENC (40_time_codec R73), the fields of its set F for an alarm operation
(41_alarm_codec R87, R88), none for TDEC (R72, R77). -/
def Instr.reads : Instr → List Field
  | .tenc _ => [.seconds, .minutes, .hours, .dayOfWeek, .dayOfMonth, .month, .year]
  | .tdec _ => []
  | .a1S _ => [.seconds]
  | .a1Ms _ => [.seconds, .minutes]
  | .a1Hms _ => [.seconds, .minutes, .hours]
  | .a1DhmsDay => [.seconds, .minutes, .hours, .dayOfWeek]
  | .a1DhmsDate => [.seconds, .minutes, .hours, .dayOfMonth]
  | .a2M _ => [.minutes]
  | .a2Hm _ => [.minutes, .hours]
  | .a2DhmDay => [.minutes, .hours, .dayOfWeek]
  | .a2DhmDate => [.minutes, .hours, .dayOfMonth]

/-- The channel of an alarm operation; the time codec has none (41_alarm_codec R87). -/
def Instr.channel : Instr → Option Channel
  | .tenc _ => none
  | .tdec _ => none
  | .a1S _ => some .alarm1
  | .a1Ms _ => some .alarm1
  | .a1Hms _ => some .alarm1
  | .a1DhmsDay => some .alarm1
  | .a1DhmsDate => some .alarm1
  | .a2M _ => some .alarm2
  | .a2Hm _ => some .alarm2
  | .a2DhmDay => some .alarm2
  | .a2DhmDate => some .alarm2

/-- The field set F of an alarm operation, the table of 41_alarm_codec R87 row by row; empty for
the time codec. -/
def Instr.included : Instr → List Position
  | .tenc _ => []
  | .tdec _ => []
  | .a1S _ => [.seconds]
  | .a1Ms _ => [.seconds, .minutes]
  | .a1Hms _ => [.seconds, .minutes, .hours]
  | .a1DhmsDay => [.seconds, .minutes, .hours, .dayDate]
  | .a1DhmsDate => [.seconds, .minutes, .hours, .dayDate]
  | .a2M _ => [.minutes]
  | .a2Hm _ => [.minutes, .hours]
  | .a2DhmDay => [.minutes, .hours, .dayDate]
  | .a2DhmDate => [.minutes, .hours, .dayDate]

/-- The day-vs-date selector `cmd[4]` of an operation: 1 = day-of-week (10_state R18). -/
def Instr.dysel : Instr → Bool
  | .tenc d => d
  | .tdec d => d
  | .a1S d => d
  | .a1Ms d => d
  | .a1Hms d => d
  | .a1DhmsDay => true
  | .a1DhmsDate => false
  | .a2M d => d
  | .a2Hm d => d
  | .a2DhmDay => true
  | .a2DhmDate => false

/-- The timestamp operand of an evaluation as a program writes it. `none` is a field the program
omits, to which the model gives no value (30_encoding R70). -/
structure TsOperands where
  seconds : Option Nat := none
  minutes : Option Nat := none
  hour : Option Hour := none
  dayOfWeek : Option Nat := none
  dayOfMonth : Option Nat := none
  month : Option Nat := none
  year : Option Nat := none
  isCentury : Option Bool := none
  deriving DecidableEq, Repr

/-- Every field of a timestamp presented. -/
def TsOperands.ofTimestamp (ts : Timestamp) : TsOperands where
  seconds := some ts.seconds
  minutes := some ts.minutes
  hour := some ts.hour
  dayOfWeek := some ts.dayOfWeek
  dayOfMonth := some ts.dayOfMonth
  month := some ts.month
  year := some ts.year
  isCentury := some ts.isCentury

/-- Is a numeric field written by the program? -/
def TsOperands.presents (ts : TsOperands) : Field → Bool
  | .seconds => ts.seconds.isSome
  | .minutes => ts.minutes.isSome
  | .hours => ts.hour.isSome
  | .dayOfWeek => ts.dayOfWeek.isSome
  | .dayOfMonth => ts.dayOfMonth.isSome
  | .month => ts.month.isSome
  | .year => ts.year.isSome

/-- The register-byte operand of an evaluation: seven byte literals, or the bytes that stand at
the `rb` port, where READ7 puts them (95_test_vectors P1, step 4) and, by the model's choice, an
earlier evaluation's literals do too (log entry 11). -/
inductive RbOperand where
  | literal (rb : RegBytes)
  | asRead
  deriving DecidableEq, Repr

/-- Where a WRITE starts: a literal address, or byte 0 of the output, which is an alarm block's
start address (30_encoding R71). -/
inductive WriteStart where
  | literal (addr : Byte)
  | outByte0
  deriving DecidableEq, Repr

/-- One step of a program (30_encoding R71, 95_test_vectors section 5): one evaluation of the
block, given by its command word followed by its operands, or one host step. -/
inductive HostStep where
  | evaluate (cmd : Cmd) (ts : TsOperands) (rb : RbOperand)
  | write (start : WriteStart) (first : Nat)   -- `WRITE start, out[first..]`
  | read7
  deriving DecidableEq, Repr

/-- An assembler line of 30_encoding R70 as its parts. -/
inductive AsmLine where
  | tenc (sec min : Nat) (hour : Hour) (dow dom mon yy : Nat) (century : Bool)
  | tdec (rb : RbOperand)
  | alarm (op : Instr) (ts : TsOperands)
  deriving DecidableEq, Repr

/-- The regions of the device register map (10_state R26), context of the block. -/
inductive Region where
  | timeBlock
  | alarm1Block
  | alarm2Block
  | control
  | status
  | agingOffset
  | temperature
  deriving DecidableEq, Repr

end Sys2Proof
end

