-- ==== Sys2Proof/WellFormed.lean ====
section
/-!
DEFINITION. The checks the spec names on timestamps, evaluations and assembler lines. Every term of
`Instr` is an operation of the table, since its only operand is the ignored bit `cmd[4]`, so it has
no check of its own. The block makes none of these checks: its one check is the contract check
(60_exceptions R121), in Machine/Ops.lean. These are the premises a caller owes
(70_reset_and_hazards R131, R132).
-/

namespace Sys2Proof

/-- The valid ranges of an hour: 0-23, or 1-12 in 12-hour mode (10_state R17). -/
def Hour.valid : Hour → Bool
  | .h24 h => h ≤ 23
  | .h12 h _ => 1 ≤ h && h ≤ 12

/-- The valid range of one numeric field (10_state R16). -/
def Timestamp.fieldValid (ts : Timestamp) : Field → Bool
  | .seconds => ts.seconds ≤ 59
  | .minutes => ts.minutes ≤ 59
  | .hours => ts.hour.valid
  | .dayOfWeek => 1 ≤ ts.dayOfWeek && ts.dayOfWeek ≤ 7
  | .dayOfMonth => 1 ≤ ts.dayOfMonth && ts.dayOfMonth ≤ 31
  | .month => 1 ≤ ts.month && ts.month ≤ 12
  | .year => ts.year ≤ 99

/-- `ValidTimestamp(ts)`: every field is in its valid range (10_state R16). -/
def Timestamp.valid (ts : Timestamp) : Bool :=
  [Field.seconds, .minutes, .hours, .dayOfWeek, .dayOfMonth, .month, .year].all ts.fieldValid

/-- `ValidAlarm(op, ts)`: every field in the operation's set F is in its valid range
(41_alarm_codec R103). -/
def Instr.validAlarm (i : Instr) (ts : Timestamp) : Bool := i.reads.all ts.fieldValid

/-- The nine alarm operations are the ones with a channel. -/
def Instr.isAlarm (i : Instr) : Bool := i.channel.isSome

/-- An evaluation presents every timestamp field that its operation reads; TENC needs its century
flag too (70_reset_and_hazards R131). -/
def TsOperands.presentsFor (ts : TsOperands) (i : Instr) : Bool :=
  i.reads.all ts.presents &&
    match i with
    | .tenc _ => ts.isCentury.isSome
    | _ => true

/-- An assembler line is well formed when an alarm line names an alarm operation and gives the
fields it reads (30_encoding R70). -/
def AsmLine.wellFormed : AsmLine → Bool
  | .tenc _ _ _ _ _ _ _ _ => true
  | .tdec _ => true
  | .alarm op ts => op.isAlarm && ts.presentsFor op

end Sys2Proof
end

