-- ==== Sys2Proof/Decode.lean ====
section
/-!
DEFINITION. The command decoder, total over all 32 command words, and the encoder and assembler
written from the same table (30_encoding R47 to R51, R70).
-/

namespace Sys2Proof

/-- Why a word is not decoded: its `op` is 0x9 to 0xF (30_encoding R50), or it is no 5-bit word
(R47: every command word is exactly 5 bits). -/
inductive DecodeError where
  | reservedCommand (cmd : Cmd)
  | notACommandWord (w : Nat)
  deriving DecidableEq, Repr

/-- `op = cmd[3:0]`. -/
def opOf (cmd : Cmd) : Nat := (cmd.extractLsb' 0 4).toNat

/-- `dysel = cmd[4]`. -/
def dyselOf (cmd : Cmd) : Bool := cmd.getLsbD 4

/-- `decode_cmd` of 30_encoding R51. -/
def decodeCmd (cmd : Cmd) : Except DecodeError Instr :=
  match opOf cmd with
  | 0x0 => .ok (.tenc (dyselOf cmd))
  | 0x1 => .ok (.tdec (dyselOf cmd))
  | 0x2 => .ok (.a1S (dyselOf cmd))
  | 0x3 => .ok (.a1Ms (dyselOf cmd))
  | 0x4 => .ok (.a1Hms (dyselOf cmd))
  | 0x5 => .ok (if dyselOf cmd then .a1DhmsDay else .a1DhmsDate)
  | 0x6 => .ok (.a2M (dyselOf cmd))
  | 0x7 => .ok (.a2Hm (dyselOf cmd))
  | 0x8 => .ok (if dyselOf cmd then .a2DhmDay else .a2DhmDate)
  | _ => .error (.reservedCommand cmd)

/-- Decoding a word given as a number: one that needs more than 5 bits is no command word. -/
def decodeWord (w : Nat) : Except DecodeError Instr :=
  if w < 32 then decodeCmd (BitVec.ofNat 5 w) else .error (.notACommandWord w)

/-- The instruction the decoder reads from a word of spec/opcode_table.json. The table's rows are
one word of 5 bits, so `nbits` (5 bits in whole bytes) says nothing more. -/
def decodeTableWord (_nbits w : Nat) : Option Instr :=
  match decodeWord w with
  | .ok i => some i
  | .error _ => none

/-- The command word with `dysel` in bit 4 and `op` in bits 3:0 (30_encoding R47). -/
def cmdWord (dysel : Bool) (op : BitVec 4) : Cmd := (BitVec.ofBool dysel) ++ op

/-- The command word of each operation (30_encoding R48). -/
def encode : Instr → Cmd
  | .tenc d => cmdWord d 0x0#4
  | .tdec d => cmdWord d 0x1#4
  | .a1S d => cmdWord d 0x2#4
  | .a1Ms d => cmdWord d 0x3#4
  | .a1Hms d => cmdWord d 0x4#4
  | .a1DhmsDay => cmdWord true 0x5#4
  | .a1DhmsDate => cmdWord false 0x5#4
  | .a2M d => cmdWord d 0x6#4
  | .a2Hm d => cmdWord d 0x7#4
  | .a2DhmDay => cmdWord true 0x8#4
  | .a2DhmDate => cmdWord false 0x8#4

/-- Assembling a line of 30_encoding R70 gives the evaluation it stands for: the command word of
its mnemonic followed by its operands. TENC and TDEC lines do not write `dysel`, which is
assembled as 0 (log entry 12). -/
def assemble : AsmLine → HostStep
  | .tenc sec min hour dow dom mon yy c =>
    .evaluate (encode (.tenc false)) (.ofTimestamp ⟨sec, min, hour, dow, dom, mon, yy, c⟩) .asRead
  | .tdec rb => .evaluate (encode (.tdec false)) {} rb
  | .alarm op ts => .evaluate (encode op) ts .asRead

end Sys2Proof
end

