-- ==== Sys2Proof/Config.lean ====
section
/-!
DEFINITION. What the spec leaves open: the parameter `DecodeMaskProfile` of a model and the values
at input ports that a program does not present. Both are constants with no body, so no proof can
see what they are.
-/

namespace Sys2Proof.Config

/-- The parameter `DecodeMaskProfile`, left OPEN (00_scope R6, 92_eei_decisions D7). It is the
profile of the machine after reset, which does not set it (70_reset_and_hazards R129); statements
are about every profile. Log entry 1. -/
opaque decodeMaskProfile : DecodeMaskProfile

/-- The free values of the timestamp port in the `n`-th evaluation a program presents: a field the
program omits has no value (30_encoding R70), so the port holds the component of this, about which
nothing is known. Log entry 4. -/
opaque undrivenTs : Nat → Timestamp

end Sys2Proof.Config
end

