-- ==== Sys2Proof/Machine/State.lean ====
section
/-!
DEFINITION. The state of the machine: the input ports of the block, the result at its output ports,
and the harness around it with its register image `REG`, its remaining program and its record of
failures. The block itself holds nothing from one evaluation to the next (10_state R13).
-/

namespace Sys2Proof.Machine

/-- The register image `REG` as (address, byte) pairs, addresses strictly rising. An address that is
not listed is `UNSET` (30_encoding R71). -/
abbrev Memory := List Host.Cell

/-- The two kinds of failed evaluation with what each records, the table of 60_exceptions R120. -/
inductive Failure where
  /-- `Fault(FieldRange)`: the command word and the checked fields whose value is 100 or more, in
  the order of `Field`; as a set they have no order (R121). -/
  | fieldRange (cmd : Cmd) (fields : List Field)
  /-- `Refused(ReservedCommand)`: the command word. -/
  | reservedCommand (cmd : Cmd)
  deriving DecidableEq, Repr

/-- The codes of 60_exceptions R120. -/
def Failure.code : Failure → Nat
  | .fieldRange _ _ => 1
  | .reservedCommand _ => 2

/-- The result of one evaluation (10_state R20). `failed (.fieldRange ..)` is `Fault(FieldRange)`
and `failed (.reservedCommand _)` is `Refused(ReservedCommand)`. -/
inductive Result where
  | bytes (out : List Byte)
  | decoded (dec : Timestamp)
  | failed (f : Failure)
  deriving DecidableEq, Repr

/-- Why an evaluation or a host step gives no next state. -/
inductive Fault where
  /-- `Fault(FieldRange)` of 60_exceptions R118, R121, raised by TENC and the alarm operations; the
  harness records it and goes on (R123). Safe: no byte is assigned where the hardware may drive
  any (R127). -/
  | fieldRange (cmd : Cmd) (fields : List Field)
  /-- READ7 of a REG entry the harness has not written, a harness fault (30_encoding R71). Safe:
  the run stops. -/
  | unsetRegister (addr : Nat)
  /-- WRITE of an output byte that the last result does not define, which a model must not read
  (10_state R20). Safe: the run stops. -/
  | undefinedLane (lane : Nat)
  /-- WRITE to an address above 0x12, outside `REG[0x00..0x12]` (30_encoding R71). Safe: the run
  stops. -/
  | outsideImage (addr : Nat)
  deriving DecidableEq, Repr

/-- Why a command has no meaning. -/
inductive Refusal where
  /-- An instruction whose meaning is not written; no arm of `exec` uses it. Safe: the run stops. -/
  | notModelled (mnemonic : String)
  /-- `Refused(ReservedCommand)` of 60_exceptions R119, for `op` 0x9 to 0xF; the harness records it
  and goes on (R123). Safe: no result is assigned. -/
  | reservedCommand (cmd : Cmd)
  deriving DecidableEq, Repr

/-- The machine: block and harness. -/
structure State where
  /-- The parameter `DecodeMaskProfile`; no step changes it (70_reset_and_hazards R129). -/
  profile : DecodeMaskProfile
  /-- Input port `cmd[4:0]` (10_state R15). -/
  cmd : Cmd
  /-- Input bundle `ts` (10_state R15, R16). -/
  ts : Timestamp
  /-- Input ports `rb[0..6]` (10_state R15, R19). -/
  rb : RegBytes
  /-- The result of the last evaluation (10_state R20); `none` before the first. -/
  out : Option Result
  /-- The harness's register image `REG[0x00..0x12]` (30_encoding R71). -/
  reg : Memory
  /-- The steps the caller has still to make, first one first (95_test_vectors section 5). -/
  program : List HostStep
  /-- The failures met so far, oldest first; never cleared (60_exceptions R123). -/
  recorded : List Failure
  /-- The model's own counter of presented evaluations, read by the free values (log entry 4). -/
  undriven : Nat
  deriving DecidableEq, Repr

namespace State

/-- Right after reset: the spec's reset initialises nothing (70_reset_and_hazards R128), REG is
UNSET and no failure is recorded (95_test_vectors section 5). The values at the input ports are
the model's choice (log entry 2). -/
def reset : State where
  profile := Config.decodeMaskProfile
  cmd := 0#5
  ts := ⟨0, 0, .h24 0, 0, 0, 0, 0, false⟩
  rb := ⟨0, 0, 0, 0, 0, 0, 0⟩
  out := none
  reg := []
  program := []
  recorded := []
  undriven := 0

end State

end Sys2Proof.Machine
end

