-- ==== Sys2Proof/Machine/Flags.lean ====
section
/-!
DEFINITION. The flag bits that overlay register bytes. The block has no status flags or condition
codes (10_state R24); these are the only flags the spec gives.
-/

namespace Sys2Proof.Machine

/-- Bit 6 of an hours byte, 1 = 12-hour mode (30_encoding R54). -/
def modeBit : Byte := 0x40

/-- Bit 5 of an hours byte in 12-hour mode, 1 = PM (30_encoding R54): `pm << 5`. -/
def pmBit (pm : Bool) : Byte := (BitVec.ofBool pm).setWidth 8 <<< 5

/-- Bit 7 of the month byte, the century flag (30_encoding R57): `c << 7`. -/
def centuryBit (c : Bool) : Byte := (BitVec.ofBool c).setWidth 8 <<< 7

/-- `DONTCARE`, the whole byte of an excluded alarm field (30_encoding R67). -/
def dontCare : Byte := 0x80

/-- Bit 6 of the day/date byte, 1 = day-of-week (30_encoding R68, 92_eei_decisions D12). -/
def selectorBit : Byte := 0x40

/-- Does an hours byte say 12-hour mode? -/
def is12Hour (b : Byte) : Bool := b.getLsbD 6

/-- The meridiem bit of an hours byte in 12-hour mode. -/
def pmOf (b : Byte) : Bool := b.getLsbD 5

/-- The century flag of a month byte. -/
def centuryOf (b : Byte) : Bool := b.getLsbD 7

/-- The don't-care bit of an alarm register byte (00_scope R11). -/
def isDontCare (b : Byte) : Bool := b.getLsbD 7

/-- The day-vs-date selector of an included day/date byte (41_alarm_codec R91). -/
def selectsDay (b : Byte) : Bool := b.getLsbD 6

/-- The bit of the control register's interrupt enable and of the status register's fired flag for a
channel: bit c-1 (10_state R27, R28). Context only: no operation of the block uses it. -/
def channelFlagBit : Channel → Nat
  | .alarm1 => 0
  | .alarm2 => 1

end Sys2Proof.Machine
end

