-- ==== Sys2Proof/Machine/Operands.lean ====
section
/-!
DEFINITION. The field primitives of 30_encoding section 3: BCD packing and unpacking, the tens masks
of each profile, and the packed form of hours, day-of-week, month and the alarm day/date byte.
-/

namespace Sys2Proof.Machine

/-- `UNBCD(t, o)`, with no validation (30_encoding R59). -/
def unbcd (t o : Nat) : Nat := o + 10 * t

/-- `BCD2(v)`, used for v in 0..99 only (30_encoding R60, R61). -/
def bcd2 (v : Nat) : Byte := BitVec.ofNat 8 (((v / 10) <<< 4) ||| (v % 10))

/-- The ones nibble `b[3:0]`. -/
def ones (b : Byte) : Nat := (b.extractLsb' 0 4).toNat

/-- The tens rows of 30_encoding R62, one function per row: seconds. -/
def tensSec (p : DecodeMaskProfile) (b : Byte) : Nat :=
  match p with
  | .narrow => (b.extractLsb' 4 3).toNat
  | .wide => (b.extractLsb' 4 4).toNat

/-- Minutes. -/
def tensMin (p : DecodeMaskProfile) (b : Byte) : Nat :=
  match p with
  | .narrow => (b.extractLsb' 4 3).toNat
  | .wide => (b.extractLsb' 4 4).toNat

/-- Hours in 24-hour mode: `b[5:4]` under both profiles. -/
def tensHour24 (b : Byte) : Nat := (b.extractLsb' 4 2).toNat

/-- Hours in 12-hour mode: `b[4]` under both profiles. -/
def tensHour12 (b : Byte) : Nat := (b.extractLsb' 4 1).toNat

/-- Day-of-month. -/
def tensDom (p : DecodeMaskProfile) (b : Byte) : Nat :=
  match p with
  | .narrow => (b.extractLsb' 4 2).toNat
  | .wide => (b.extractLsb' 4 4).toNat

/-- Month; bit 7 is never part of it. -/
def tensMonth (p : DecodeMaskProfile) (b : Byte) : Nat :=
  match p with
  | .narrow => (b.extractLsb' 4 1).toNat
  | .wide => (b.extractLsb' 4 3).toNat

/-- Year: `b[7:4]` under both profiles. -/
def tensYear (b : Byte) : Nat := (b.extractLsb' 4 4).toNat

/-- `HOURPACK` (30_encoding R63): flag bits are ORed on, nothing is masked. -/
def hourPack : Hour → Byte
  | .h24 h => bcd2 h
  | .h12 h pm => modeBit ||| pmBit pm ||| bcd2 h

/-- `HOURUNPACK` (30_encoding R64): bit 6 selects the mask, bit 7 is not read. -/
def hourUnpack (b : Byte) : Hour :=
  if is12Hour b then .h12 (unbcd (tensHour12 b) (ones b)) (pmOf b)
  else .h24 (unbcd (tensHour24 b) (ones b))

/-- `DOWPACK(v) = zext_8(v[2:0])` (30_encoding R65). -/
def dowPack (v : Nat) : Byte := (BitVec.ofNat 3 v).setWidth 8

/-- `DOWUNPACK(b) = b[2:0]` (30_encoding R65). -/
def dowUnpack (b : Byte) : Nat := (b.extractLsb' 0 3).toNat

/-- `MONTHPACK(m, c)` (30_encoding R66). -/
def monthPack (m : Nat) (c : Bool) : Byte := centuryBit c ||| bcd2 m

/-- The month part of `MONTHUNPACK` (30_encoding R66). -/
def monthUnpack (p : DecodeMaskProfile) (b : Byte) : Nat := unbcd (tensMonth p b) (ones b)

/-- `DAYDATEPACK(ts, dysel)` (30_encoding R68). -/
def dayDatePack (ts : Timestamp) (dysel : Bool) : Byte :=
  if dysel then selectorBit ||| dowPack ts.dayOfWeek else bcd2 ts.dayOfMonth

/-- `PACK(X, ts, dysel)` of 41_alarm_codec R86. -/
def packPosition (ts : Timestamp) (dysel : Bool) : Position → Byte
  | .seconds => bcd2 ts.seconds
  | .minutes => bcd2 ts.minutes
  | .hours => hourPack ts.hour
  | .dayDate => dayDatePack ts dysel

/-- The value of a numeric field, `VALUE` of 41_alarm_codec R86; hours counts by its value in either
mode (40_time_codec R73). -/
def fieldValue (ts : Timestamp) : Field → Nat
  | .seconds => ts.seconds
  | .minutes => ts.minutes
  | .hours => ts.hour.value
  | .dayOfWeek => ts.dayOfWeek
  | .dayOfMonth => ts.dayOfMonth
  | .month => ts.month
  | .year => ts.year

/-- The numeric field behind a position, whose value is `VALUE(X, ts, dysel)` of R86. -/
def positionField (dysel : Bool) : Position → Field
  | .seconds => .seconds
  | .minutes => .minutes
  | .hours => .hours
  | .dayDate => if dysel then .dayOfWeek else .dayOfMonth

/-- The leading address byte of a channel's block (20_memory R34, R35). -/
def channelAddress : Channel → Byte
  | .alarm1 => 0x07
  | .alarm2 => 0x0B

/-- The register positions of a channel's block in ascending address (20_memory R34, R35). -/
def channelPositions : Channel → List Position
  | .alarm1 => [.seconds, .minutes, .hours, .dayDate]
  | .alarm2 => [.minutes, .hours, .dayDate]

/-- The operand of a program on the timestamp port; what it omits has the free value given. -/
def driveTs (free : Timestamp) (ts : TsOperands) : Timestamp where
  seconds := ts.seconds.getD free.seconds
  minutes := ts.minutes.getD free.minutes
  hour := ts.hour.getD free.hour
  dayOfWeek := ts.dayOfWeek.getD free.dayOfWeek
  dayOfMonth := ts.dayOfMonth.getD free.dayOfMonth
  month := ts.month.getD free.month
  year := ts.year.getD free.year
  isCentury := ts.isCentury.getD free.isCentury

/-- The operand of a program on the `rb` port. Byte literals replace what stands there, READ7's bytes
included; an operand that writes no bytes leaves the port as it is, so TDEC then decodes whatever
was put there last, by READ7 or by an earlier evaluation's literals. The spec shows only a READ7
followed by TDEC (95_test_vectors P1); that literals overwrite READ7's bytes is the model's choice.
DESIGN CHOICE, log entry 11. -/
def driveRb (port : RegBytes) : RbOperand → RegBytes
  | .literal rb => rb
  | .asRead => port

/-- The region of a device register address (10_state R26); `none` above 0x12. -/
def regionOf (addr : Nat) : Option Region :=
  if addr ≤ 0x06 then some .timeBlock
  else if addr ≤ 0x0A then some .alarm1Block
  else if addr ≤ 0x0D then some .alarm2Block
  else if addr = 0x0E then some .control
  else if addr = 0x0F then some .status
  else if addr = 0x10 then some .agingOffset
  else if addr ≤ 0x12 then some .temperature
  else none

end Sys2Proof.Machine
end

