-- ==== Sys2Proof/Machine/Ops.lean ====
section
/-!
DEFINITION. The named operations over the register image and the ports, the contract check, the
encoders' shared ending, raising and recording a failure (what the spec has in place of exception
entry, 60_exceptions R117), and the generic alarm encoder.
-/

namespace Sys2Proof.Machine

/-- The last address of the register image (10_state R26, 30_encoding R71). -/
def lastAddress : Nat := 0x12

/-- One byte of REG; `none` is `UNSET`. -/
def Memory.read : Memory → Nat → Option Byte
  | [], _ => none
  | (k, v) :: m, a => if k = a then some v else Memory.read m a

/-- Setting one byte of REG, keeping addresses strictly rising. -/
def Memory.write : Memory → Nat → Byte → Memory
  | [], a, b => [(a, b)]
  | (k, v) :: m, a, b =>
    if a < k then (a, b) :: (k, v) :: m
    else if a = k then (a, b) :: m
    else (k, v) :: Memory.write m a b

/-- The canonical form: addresses strictly rising, all inside the image. -/
abbrev Memory.wf (m : Memory) : Prop :=
  m.Pairwise (fun x y => x.1 < y.1) ∧ ∀ c ∈ m, c.1 ≤ lastAddress

/-- Setting consecutive bytes from an address on, stopping at the image's end. -/
def Memory.writeBytes : Memory → Nat → List Byte → Except Fault Memory
  | m, _, [] => .ok m
  | m, a, b :: bs =>
    if a ≤ lastAddress then Memory.writeBytes (m.write a b) (a + 1) bs
    else .error (.outsideImage a)

/-- One byte of REG, or the harness fault on `UNSET` (30_encoding R71). -/
def Memory.get (m : Memory) (a : Nat) : Except Fault Byte :=
  match m.read a with
  | some b => .ok b
  | none => .error (.unsetRegister a)

/-- READ7: `rb[k] = REG[0x00 + k]` (30_encoding R71). -/
def Memory.read7 (m : Memory) : Except Fault RegBytes := do
  let b0 ← m.get 0x00
  let b1 ← m.get 0x01
  let b2 ← m.get 0x02
  let b3 ← m.get 0x03
  let b4 ← m.get 0x04
  let b5 ← m.get 0x05
  let b6 ← m.get 0x06
  return ⟨b0, b1, b2, b3, b4, b5, b6⟩

namespace State

/-- The result of an evaluation at the output ports; nothing else changes (10_state R13). -/
def withOut (s : State) (r : Result) : State := { s with out := some r }

/-- A failed evaluation: the failure replaces the result (60_exceptions R117) and the harness
records it (R123). -/
def fail (s : State) (f : Failure) : State :=
  { s with out := some (.failed f), recorded := s.recorded ++ [f] }

/-- The caller presents an evaluation's inputs (70_reset_and_hazards R131). -/
def drive (s : State) (cmd : Cmd) (ts : TsOperands) (rb : RbOperand) : State :=
  { s with
    cmd := cmd
    ts := driveTs (Config.undrivenTs s.undriven) ts
    rb := driveRb s.rb rb
    undriven := s.undriven + 1 }

/-- The `rb` port after READ7. -/
def withRb (s : State) (rb : RegBytes) : State := { s with rb := rb }

/-- The register image after WRITE. -/
def withReg (s : State) (m : Memory) : State := { s with reg := m }

/-- The steps left after the caller has taken one. -/
def withProgram (s : State) (p : List HostStep) : State := { s with program := p }

end State

/-- The output bytes the last result defines (10_state R20). -/
def definedBytes : Option Result → List Byte
  | some (.bytes out) => out
  | _ => []

/-- The 3-bit length port `olen` of a byte result: 7, 5 or 4 (10_state R20). -/
def olen : Option Result → Option (BitVec 3)
  | some (.bytes out) => some (BitVec.ofNat 3 out.length)
  | _ => none

/-- One output byte, or the fault on a lane the last result does not define. -/
def outByte (r : Option Result) (k : Nat) : Except Fault Byte :=
  match (definedBytes r)[k]? with
  | some b => .ok b
  | none => .error (.undefinedLane k)

/-- The checked fields whose value is 100 or more (60_exceptions R121). -/
def offending (checked : List Field) (ts : Timestamp) : List Field :=
  checked.filter (fun f => Nat.ble 100 (fieldValue ts f))

/-- The shared ending of the encoding operations: the contract check over every checked field, then
all the bytes at once or the fault and nothing else (60_exceptions R117, R121, R124). -/
def encodeResult (cmd : Cmd) (checked : List Field) (out : List Byte) (s : State) :
    Host.Outcome State Fault Refusal :=
  if offending checked s.ts = [] then .next (s.withOut (.bytes out))
  else .fault (.fieldRange cmd (offending checked s.ts))

/-- `ALARMENC(ch, F, ts, dysel)`: the bytes (41_alarm_codec R86). -/
def alarmBytes (ch : Channel) (included : List Position) (ts : Timestamp) (dysel : Bool) :
    List Byte :=
  channelAddress ch ::
    (channelPositions ch).map fun x =>
      if x ∈ included then packPosition ts dysel x else dontCare

/-- `ALARMENC(ch, F, ts, dysel)` with its contract check, which covers the fields of F only
(41_alarm_codec R86, R88). -/
def alarmEncode (cmd : Cmd) (ch : Channel) (included : List Position) (dysel : Bool) (s : State) :
    Host.Outcome State Fault Refusal :=
  encodeResult cmd (included.map (positionField dysel)) (alarmBytes ch included s.ts dysel) s

/-- What the harness does with the outcome of an evaluation: it records a `Fault` or `Refused` and
goes on, since nothing of it persists in the block (60_exceptions R117, R123, R125). -/
def recordOutcome (s : State) :
    Host.Outcome State Fault Refusal → Host.Outcome State Fault Refusal
  | .next t => .next t
  | .fault (.fieldRange cmd fields) => .next (s.fail (.fieldRange cmd fields))
  | .fault f => .fault f
  | .refused (.reservedCommand cmd) => .next (s.fail (.reservedCommand cmd))
  | .refused r => .refused r

/-- An operation of the harness that may fault. -/
def harnessOutcome (r : Except Fault State) : Host.Outcome State Fault Refusal :=
  match r with
  | .ok s => .next s
  | .error f => .fault f

/-- Where a WRITE starts, as a device register address. -/
def startAddress (start : WriteStart) (out : Option Result) : Except Fault Byte :=
  match start with
  | .literal a => .ok a
  | .outByte0 => outByte out 0

/-- `WRITE start, out[first..]`: each byte `out[first + j]` goes to `REG[start + j]`
(30_encoding R71). -/
def hostWrite (start : WriteStart) (first : Nat) (s : State) : Host.Outcome State Fault Refusal :=
  harnessOutcome do
    let a ← startAddress start s.out
    let _ ← outByte s.out first
    let m ← s.reg.writeBytes a.toNat ((definedBytes s.out).drop first)
    return s.withReg m

/-- `READ7` (30_encoding R71). -/
def hostRead7 (s : State) : Host.Outcome State Fault Refusal :=
  harnessOutcome do
    let rb ← s.reg.read7
    return s.withRb rb

end Sys2Proof.Machine
end

