-- ==== Sys2Proof/Machine/AlarmCodec.lean ====
section
/-!
DEFINITION. The nine Alarm Codec operations (41_alarm_codec). Each lists its own field set (R87): no
policy is built from another's output (70_reset_and_hazards R136). An operation without a
day/date field does not look at its selector.
-/

namespace Sys2Proof.Machine

/-- A1_S (41_alarm_codec R94). -/
def execA1S (dysel : Bool) (s : State) : Host.Outcome State Fault Refusal :=
  alarmEncode (encode (.a1S dysel)) .alarm1 [.seconds] dysel s

/-- A1_MS (41_alarm_codec R95). -/
def execA1Ms (dysel : Bool) (s : State) : Host.Outcome State Fault Refusal :=
  alarmEncode (encode (.a1Ms dysel)) .alarm1 [.seconds, .minutes] dysel s

/-- A1_HMS (41_alarm_codec R96). -/
def execA1Hms (dysel : Bool) (s : State) : Host.Outcome State Fault Refusal :=
  alarmEncode (encode (.a1Hms dysel)) .alarm1 [.seconds, .minutes, .hours] dysel s

/-- A1_DHMS_DAY, `cmd = 0x15` (41_alarm_codec R97). -/
def execA1DhmsDay (s : State) : Host.Outcome State Fault Refusal :=
  alarmEncode (encode .a1DhmsDay) .alarm1 [.seconds, .minutes, .hours, .dayDate] true s

/-- A1_DHMS_DATE, `cmd = 0x05` (41_alarm_codec R98). -/
def execA1DhmsDate (s : State) : Host.Outcome State Fault Refusal :=
  alarmEncode (encode .a1DhmsDate) .alarm1 [.seconds, .minutes, .hours, .dayDate] false s

/-- A2_M (41_alarm_codec R99). -/
def execA2M (dysel : Bool) (s : State) : Host.Outcome State Fault Refusal :=
  alarmEncode (encode (.a2M dysel)) .alarm2 [.minutes] dysel s

/-- A2_HM (41_alarm_codec R100). -/
def execA2Hm (dysel : Bool) (s : State) : Host.Outcome State Fault Refusal :=
  alarmEncode (encode (.a2Hm dysel)) .alarm2 [.minutes, .hours] dysel s

/-- A2_DHM_DAY, `cmd = 0x18` (41_alarm_codec R101). -/
def execA2DhmDay (s : State) : Host.Outcome State Fault Refusal :=
  alarmEncode (encode .a2DhmDay) .alarm2 [.minutes, .hours, .dayDate] true s

/-- A2_DHM_DATE, `cmd = 0x08` (41_alarm_codec R102). -/
def execA2DhmDate (s : State) : Host.Outcome State Fault Refusal :=
  alarmEncode (encode .a2DhmDate) .alarm2 [.minutes, .hours, .dayDate] false s

end Sys2Proof.Machine
end

