-- ==== Sys2Proof/Machine/TimeCodec.lean ====
section
/-!
DEFINITION. The Time Codec operations TENC and TDEC (40_time_codec).
-/

namespace Sys2Proof.Machine

/-- The decoded timestamp of TDEC (40_time_codec R80). -/
def decodeTime (p : DecodeMaskProfile) (rb : RegBytes) : Timestamp where
  seconds := unbcd (tensSec p rb.b0) (ones rb.b0)
  minutes := unbcd (tensMin p rb.b1) (ones rb.b1)
  hour := hourUnpack rb.b2
  dayOfWeek := dowUnpack rb.b3
  dayOfMonth := unbcd (tensDom p rb.b4) (ones rb.b4)
  month := monthUnpack p rb.b5
  year := unbcd (tensYear rb.b6) (ones rb.b6)
  isCentury := centuryOf rb.b5

/-- The register bytes of TENC (40_time_codec R79). -/
def encodeTime (ts : Timestamp) : RegBytes where
  b0 := bcd2 ts.seconds
  b1 := bcd2 ts.minutes
  b2 := hourPack ts.hour
  b3 := dowPack ts.dayOfWeek
  b4 := bcd2 ts.dayOfMonth
  b5 := monthPack ts.month ts.isCentury
  b6 := bcd2 ts.year

/-- TENC (40_time_codec R79): all seven numeric fields are checked (R73). -/
def execTenc (dysel : Bool) (s : State) : Host.Outcome State Fault Refusal :=
  encodeResult (encode (.tenc dysel))
    [.seconds, .minutes, .hours, .dayOfWeek, .dayOfMonth, .month, .year]
    (encodeTime s.ts).toList s

/-- TDEC (40_time_codec R80): total, whatever the bytes (R77); `dysel` is not read (R72). -/
def execTdec (_dysel : Bool) (s : State) : Host.Outcome State Fault Refusal :=
  .next (s.withOut (.decoded (decodeTime s.profile s.rb)))

end Sys2Proof.Machine
end

