-- ==== Sys2Proof/Machine/Dispatch.lean ====
section
/-!
DEFINITION. One arm per operation of the block.
-/

namespace Sys2Proof.Machine

def exec (i : Instr) (s : State) : Host.Outcome State Fault Refusal :=
  match i with
  | .tenc dysel => Sys2Proof.Machine.execTenc dysel s
  | .tdec dysel => Sys2Proof.Machine.execTdec dysel s
  | .a1S dysel => Sys2Proof.Machine.execA1S dysel s
  | .a1Ms dysel => Sys2Proof.Machine.execA1Ms dysel s
  | .a1Hms dysel => Sys2Proof.Machine.execA1Hms dysel s
  | .a1DhmsDay => Sys2Proof.Machine.execA1DhmsDay s
  | .a1DhmsDate => Sys2Proof.Machine.execA1DhmsDate s
  | .a2M dysel => Sys2Proof.Machine.execA2M dysel s
  | .a2Hm dysel => Sys2Proof.Machine.execA2Hm dysel s
  | .a2DhmDay => Sys2Proof.Machine.execA2DhmDay s
  | .a2DhmDate => Sys2Proof.Machine.execA2DhmDate s

end Sys2Proof.Machine
end

