-- ==== Sys2Proof/Machine/Harness.lean ====
section
/-!
DEFINITION. The caller's side: one evaluation of the block on the inputs at its ports, and one step of
a program (30_encoding R71).
-/

namespace Sys2Proof.Machine

/-- One evaluation: decode the command word first, then the operation with its contract check
(60_exceptions R124); the harness records a failure (R123). -/
def evaluatePorts (s : State) : Host.Outcome State Fault Refusal :=
  match decodeCmd s.cmd with
  | .ok i => recordOutcome s (exec i s)
  | .error _ => recordOutcome s (.refused (.reservedCommand s.cmd))

/-- One step of a program. -/
def runHostStep (h : HostStep) (s : State) : Host.Outcome State Fault Refusal :=
  match h with
  | .evaluate cmd ts rb => evaluatePorts (s.drive cmd ts rb)
  | .write start first => hostWrite start first s
  | .read7 => hostRead7 s

/-- The command word where the next step reads it: at the `cmd` port, with no program step left to
present another evaluation first. -/
def presentWord (s : State) (w : Nat) : State :=
  { s with cmd := BitVec.ofNat 5 w, program := [] }

end Sys2Proof.Machine
end

