-- ==== Sys2Proof/Machine/Step.lean ====
section
/-!
DEFINITION. The step of the machine: the caller's next program step or, when the caller has none left,
one evaluation of the inputs that stand at the ports (10_state R13, log entry 5).
-/

namespace Sys2Proof.Machine

def step (s : State) : Host.Outcome State Fault Refusal :=
  match s.program with
  | [] => evaluatePorts s
  | h :: rest => runHostStep h (s.withProgram rest)

/-- The next step of the result evaluates the command word `w` (log entry 7). -/
def State.withFetchWord (s : State) (_nbits w : Nat) : State := presentWord s w

end Sys2Proof.Machine
end

