-- ==== Sys2Proof/Safety.lean ====
section
/-!
DEFINITION. The terms claims about the machine use: the caller contract, the arithmetic of packed
bytes in plain numbers, the layout tables and decode views of the alarm blocks, what a sequence
without failures is, and the invariant every step keeps.
-/

namespace Sys2Proof.Machine

/-- The fields an operation encodes are inside the caller contract, 0 to 99 (00_scope R5,
70_reset_and_hazards R132). -/
abbrev InContract (i : Instr) (ts : Timestamp) : Prop :=
  ∀ f ∈ i.reads, fieldValue ts f < 100

/-- Every numeric field fits its 7-bit port, 0 to 127 (00_scope R5). The model's fields are natural
numbers, and no operation depends on this. -/
abbrev FitsPorts (ts : Timestamp) : Prop :=
  ∀ f ∈ [Field.seconds, .minutes, .hours, .dayOfWeek, .dayOfMonth, .month, .year],
    fieldValue ts f ≤ 127

/-- The value for a profile, `Narrow` first. -/
def byProfile {α : Type} (p : DecodeMaskProfile) (narrow wide : α) : α :=
  match p with
  | .narrow => narrow
  | .wide => wide

/-- A BCD byte in plain numbers: tens digit in the high nibble, ones digit in the low one. -/
def bcdByte (v : Nat) : Byte := BitVec.ofNat 8 (16 * (v / 10) + v % 10)

/-- The hours byte as flag bits ORed onto a BCD byte. -/
def hoursByte : Hour → Byte
  | .h24 h => bcdByte h
  | .h12 h false => 0x40#8 ||| bcdByte h
  | .h12 h true => 0x60#8 ||| bcdByte h

/-- The month byte as the century flag ORed onto a BCD byte. -/
def monthByte (m : Nat) : Bool → Byte
  | false => bcdByte m
  | true => 0x80#8 ||| bcdByte m

/-- The state after an evaluation with a result: nothing but the output ports changes. -/
abbrev Gives (i : Instr) (s : State) (r : Result) : Prop :=
  exec i s = .next { s with out := some r }

/-- The state after a failed evaluation: the failure is the result, and it is recorded. -/
abbrev afterFailure (s : State) (f : Failure) : State :=
  { s with out := some (.failed f), recorded := s.recorded ++ [f] }

/-- `t` is the state `s` with the inputs of a program's evaluation presented at the ports and `rest`
still to do: a field the program writes stands at its port and nothing is said of one it omits (log
entry 4), literal register bytes stand at `rb`, and without literals `rb` is as it was (log
entry 11). -/
structure Presented (s : State) (cmd : Cmd) (ts : TsOperands) (rb : RbOperand)
    (rest : List HostStep) (t : State) : Prop where
  cmd : t.cmd = cmd
  seconds : ∀ v, ts.seconds = some v → t.ts.seconds = v
  minutes : ∀ v, ts.minutes = some v → t.ts.minutes = v
  hour : ∀ v, ts.hour = some v → t.ts.hour = v
  dayOfWeek : ∀ v, ts.dayOfWeek = some v → t.ts.dayOfWeek = v
  dayOfMonth : ∀ v, ts.dayOfMonth = some v → t.ts.dayOfMonth = v
  month : ∀ v, ts.month = some v → t.ts.month = v
  year : ∀ v, ts.year = some v → t.ts.year = v
  isCentury : ∀ v, ts.isCentury = some v → t.ts.isCentury = v
  literal : ∀ b, rb = .literal b → t.rb = b
  asRead : rb = .asRead → t.rb = s.rb
  profile : t.profile = s.profile
  out : t.out = s.out
  reg : t.reg = s.reg
  program : t.program = rest
  recorded : t.recorded = s.recorded

/-- Where a position's byte stands in its channel's block, address byte included (20_memory R34,
R35): Alarm 2 has no seconds. -/
def blockIndex : Channel → Position → Option Nat
  | .alarm1, .seconds => some 1
  | .alarm1, .minutes => some 2
  | .alarm1, .hours => some 3
  | .alarm1, .dayDate => some 4
  | .alarm2, .seconds => none
  | .alarm2, .minutes => some 1
  | .alarm2, .hours => some 2
  | .alarm2, .dayDate => some 3

/-- An included byte decodes back to the reference timestamp under the decode views of
41_alarm_codec R104, which are for claims only. The day/date view is the selector's. -/
def DecodesBack (p : DecodeMaskProfile) (ts : Timestamp) (b : Byte) : Position → Prop
  | .seconds => unbcd (tensSec p b) (ones b) = ts.seconds
  | .minutes => unbcd (tensMin p b) (ones b) = ts.minutes
  | .hours => hourUnpack b = ts.hour
  | .dayDate =>
    if selectsDay b then dowUnpack b = ts.dayOfWeek
    else unbcd (tensDom p b) (ones b) = ts.dayOfMonth

/-- TENC of a timestamp succeeds and TDEC of its bytes gives the timestamp back under a profile
(40_time_codec R81, R83), whatever else the states hold. -/
def RoundTrips (p : DecodeMaskProfile) (ts : Timestamp) : Prop :=
  ∃ rb : RegBytes,
    (∀ (s : State) (d : Bool), s.ts = ts → Gives (.tenc d) s (.bytes rb.toList)) ∧
    ∀ (t : State) (d : Bool), t.profile = p → t.rb = rb → Gives (.tdec d) t (.decoded ts)

/-- No fault or refusal is recorded: the premise of every claim about a sequence of evaluations
(60_exceptions R123). -/
abbrev State.Clean (s : State) : Prop := s.recorded = []

/-- A run of `n` steps that ends in `t` (none of them a harness fault). -/
abbrev RunsTo (n : Nat) (s t : State) : Prop :=
  Sys2Proof.core.run n s = .next t

/-- A safe run: it reaches a next state with no fault or refusal recorded on the way. -/
def SafeRun (n : Nat) (s : State) : Prop := ∃ t, RunsTo n s t ∧ t.recorded = s.recorded

/-- The ranges of a decoded timestamp under a profile (10_state R21). -/
structure DecodedInRange (p : DecodeMaskProfile) (d : Timestamp) : Prop where
  seconds : d.seconds ≤ byProfile p 85 165
  minutes : d.minutes ≤ byProfile p 85 165
  hour24 : ∀ h, d.hour = .h24 h → h ≤ 45
  hour12 : ∀ h pm, d.hour = .h12 h pm → h ≤ 25
  dayOfWeek : d.dayOfWeek ≤ 7
  dayOfMonth : d.dayOfMonth ≤ byProfile p 45 165
  month : d.month ≤ byProfile p 25 85
  year : d.year ≤ 165

/-- A failure names a command word that can raise it, with what 60_exceptions R120 records: for
`FieldRange` some of the fields that word's operation checks, at least one. That they stand in the
operation's field order is the model's list form of a set (log entry 13). -/
def Failure.Legal : Failure → Prop
  | .fieldRange cmd fields =>
    ∃ i, decodeCmd cmd = .ok i ∧ fields ≠ [] ∧ fields.Sublist i.reads
  | .reservedCommand cmd => 9 ≤ cmd.toNat % 16

/-- A result has the shape of some operation's (10_state R20, 20_memory R39), and a failure that is
the current result has been recorded. -/
def ResultLegal (p : DecodeMaskProfile) (recorded : List Failure) : Option Result → Prop
  | none => True
  | some (.bytes out) =>
    out.length = 7 ∨ (out.length = 5 ∧ out.head? = some 0x07) ∨
      (out.length = 4 ∧ out.head? = some 0x0B)
  | some (.decoded d) => DecodedInRange p d
  | some (.failed f) => f ∈ recorded

/-- The invariant of the machine: REG is in the model's canonical form and inside the image (log
entry 9), the result at the output ports has the shape of an operation's result, and every recorded
failure is one that can arise. -/
structure State.Inv (s : State) : Prop where
  reg : s.reg.wf
  out : ResultLegal s.profile s.recorded s.out
  recorded : ∀ f ∈ s.recorded, f.Legal

end Sys2Proof.Machine
end

