-- ==== Sys2Proof/Certificates/Slice0/Obligations.lean ====
section
/-!
DEFINITION. The statements for the provers. `Gives i s r` reads: `exec i s` answers the next state that is
`s` with the result `r` at the output ports and every other field unchanged (the input ports, the
profile, every byte of REG, the program, the record of failures and the counter of free values), so
a statement whose conclusion it is states completion, result and frame at once.
-/

open Sys2Proof Sys2Proof.Machine

/-! ### Command words -/

/-- All 18 command words with an operation, written out from the table of 30_encoding R48, and the
reserved words of 95_test_vectors V-C7. The command word is the spec's own decision (D3: the source
has none). -/
def Obligations.CommandWordsDecodeByTheTable : Prop :=
  decodeCmd 0b00000#5 = .ok (.tenc false) ∧ decodeCmd 0b10000#5 = .ok (.tenc true) ∧
  decodeCmd 0b00001#5 = .ok (.tdec false) ∧ decodeCmd 0b10001#5 = .ok (.tdec true) ∧
  decodeCmd 0b00010#5 = .ok (.a1S false) ∧ decodeCmd 0b10010#5 = .ok (.a1S true) ∧
  decodeCmd 0b00011#5 = .ok (.a1Ms false) ∧ decodeCmd 0b10011#5 = .ok (.a1Ms true) ∧
  decodeCmd 0b00100#5 = .ok (.a1Hms false) ∧ decodeCmd 0b10100#5 = .ok (.a1Hms true) ∧
  decodeCmd 0b10101#5 = .ok .a1DhmsDay ∧ decodeCmd 0b00101#5 = .ok .a1DhmsDate ∧
  decodeCmd 0b00110#5 = .ok (.a2M false) ∧ decodeCmd 0b10110#5 = .ok (.a2M true) ∧
  decodeCmd 0b00111#5 = .ok (.a2Hm false) ∧ decodeCmd 0b10111#5 = .ok (.a2Hm true) ∧
  decodeCmd 0b11000#5 = .ok .a2DhmDay ∧ decodeCmd 0b01000#5 = .ok .a2DhmDate ∧
  decodeCmd 0b01001#5 = .error (.reservedCommand 0b01001#5) ∧
  decodeCmd 0b01111#5 = .error (.reservedCommand 0b01111#5) ∧
  decodeCmd 0b11001#5 = .error (.reservedCommand 0b11001#5) ∧
  decodeCmd 0b11111#5 = .error (.reservedCommand 0b11111#5)

/-- A command word decodes to an operation exactly when it is that operation's encoding, so that no
bit is dropped and no two operations share a word (30_encoding R48, R49, R51, the spec's decisions
D3 and D4). A word of the opcode table is one of these, numbered on 5 bits; a larger number is no
command word (log entry 7). -/
def Obligations.DecodingInvertsEncoding : Prop :=
  (∀ (c : Cmd) (i : Instr), decodeCmd c = .ok i ↔ encode i = c) ∧
  (∀ (c : Cmd) (e : DecodeError), decodeCmd c = .error e ↔
    (9 ≤ c.toNat % 16 ∧ e = .reservedCommand c)) ∧
  ∀ (nbits w : Nat) (i : Instr), decodeTableWord nbits w = some i ↔
    (w < 32 ∧ encode i = BitVec.ofNat 5 w)

/-- Where the caller has no step left, a step is one evaluation of the operation that the word at the
`cmd` port decodes to; the harness records a failed evaluation and goes on (60_exceptions R123, the
spec's decision D20). That a step with no program left evaluates the ports, and that a failure is a
next state, are the model's choices (log entries 5 and 6). -/
def Obligations.StepEvaluatesTheDecodedOperation : Prop :=
  ∀ (s : State) (i : Instr), s.program = [] → decodeCmd s.cmd = .ok i →
    (∀ t, exec i s = .next t → step s = .next t) ∧
    (∀ cmd fields, exec i s = .fault (.fieldRange cmd fields) →
      step s = .next (afterFailure s (.fieldRange cmd fields)))

/-- An evaluation of a program presents its inputs at the ports and evaluates them. A field the
program writes stands at the port, register bytes it does not write stay at the port as they were
(the model's choice, log entry 11), and nothing is said of a field it omits (log entry 4). A fault
is recorded and the harness goes on (60_exceptions R117, R123, the spec's decision D20; log entry
6). For a reserved command word see ReservedCommandIsRefusedAndRecorded. That a step is the
program's first step is the model's choice (log entry 5). -/
def Obligations.ProgramEvaluationPresentsItsInputs : Prop :=
  ∀ (s : State) (cmd : Cmd) (ts : TsOperands) (rb : RbOperand) (rest : List HostStep) (i : Instr),
    s.program = .evaluate cmd ts rb :: rest → decodeCmd cmd = .ok i →
    ∃ t : State, Presented s cmd ts rb rest t ∧
      (∀ u, exec i t = .next u → step s = .next u) ∧
      (∀ c fields, exec i t = .fault (.fieldRange c fields) →
        step s = .next (afterFailure t (.fieldRange c fields)))

/-- A reserved command word, whatever stands at the other ports, gives no bytes and no decoded
timestamp: the result is `Refused(ReservedCommand)` with code 2 and the command word, no contract
check is made, and the harness goes on, with the rest of the program where the word came from one
(95_test_vectors P5, step 3; 30_encoding R50, 60_exceptions R119, R120, R123, R124, the spec's
decisions D4 and D20; log entry 6). That a step with no program left evaluates the ports (log entry
5), and what stands at the ports a program does not write (log entries 4 and 11), are the model's
choices. -/
def Obligations.ReservedCommandIsRefusedAndRecorded : Prop :=
  (∀ s : State, s.program = [] → 9 ≤ s.cmd.toNat % 16 →
    step s = .next (afterFailure s (.reservedCommand s.cmd))) ∧
  (∀ (s : State) (cmd : Cmd) (ts : TsOperands) (rb : RbOperand) (rest : List HostStep),
    s.program = .evaluate cmd ts rb :: rest → 9 ≤ cmd.toNat % 16 →
    ∃ t : State, Presented s cmd ts rb rest t ∧
      step s = .next (afterFailure t (.reservedCommand cmd))) ∧
  ∀ cmd : Cmd, (Failure.reservedCommand cmd).code = 2

/-- The fetch word of the host's interface: the next step evaluates exactly the operation the word
decodes to, on the inputs that stand at the ports (the model's choice, log entry 7, as is that a
step with no program left evaluates the ports, log entry 5); a fault is recorded (60_exceptions
R117, R123, the spec's decision D20; log entry 6). -/
def Obligations.FetchWordIsEvaluatedNext : Prop :=
  ∀ (s : State) (nbits w : Nat) (i : Instr), decodeTableWord nbits w = some i →
    let t := s.withFetchWord nbits w
    t.ts = s.ts ∧ t.rb = s.rb ∧ t.profile = s.profile ∧ t.out = s.out ∧ t.reg = s.reg ∧
    t.recorded = s.recorded ∧
    (∀ u, exec i t = .next u → step t = .next u) ∧
    (∀ c fields, exec i t = .fault (.fieldRange c fields) →
      step t = .next (afterFailure t (.fieldRange c fields)))

/-! ### Every operation: completion, contract, frame, what it reads -/

/-- Every operation completes in contract, changing nothing but the result at the output ports; out
of contract it raises `Fault(FieldRange)`, code 1, with its command word and exactly the checked
fields whose value is 100 or more (40_time_codec R73, 41_alarm_codec R88, 60_exceptions R117, R120,
R121, the spec's decisions D5, D6 and D20). That the fields stand in a list without repeats is the
model's form of a set (log entry 13). -/
def Obligations.EvaluationCompletesExactlyInContract : Prop :=
  ∀ (i : Instr) (s : State),
    (InContract i s.ts → ∃ r, Gives i s r) ∧
    (¬ InContract i s.ts →
      ∃ fields, exec i s = .fault (.fieldRange (encode i) fields) ∧
        (Failure.fieldRange (encode i) fields).code = 1 ∧
        (∀ f, f ∈ fields ↔ (f ∈ i.reads ∧ 100 ≤ fieldValue s.ts f)) ∧ fields.Nodup)

/-- Inputs an operation does not read do not affect its outcome, and no earlier evaluation does: two
states that agree on the fields the operation reads (and on the hour's mode and the century flag
where it encodes them, and on the register bytes and the profile for TDEC) give the same result or
the same fault (10_state R13 to R15, 20_memory R43, 40_time_codec R72, 41_alarm_codec R89, which the
spec marks as derived or as its decisions D1 and D2). -/
def Obligations.OutcomeDependsOnlyOnInputsRead : Prop :=
  ∀ (i : Instr) (s t : State),
    (∀ f ∈ i.reads, fieldValue s.ts f = fieldValue t.ts f) →
    (Field.hours ∈ i.reads → s.ts.hour = t.ts.hour) →
    ((∃ d, i = .tenc d) → s.ts.isCentury = t.ts.isCentury) →
    ((∃ d, i = .tdec d) → s.rb = t.rb ∧ s.profile = t.profile) →
    (∀ r, Gives i s r ↔ Gives i t r) ∧
    (∀ f, exec i s = .fault f ↔ exec i t = .fault f)

/-- `dysel` is ignored by the seven operations without a day/date field: both words give the same
result, and out of contract the same fields are recorded with the word that was given
(30_encoding R49, the spec's decision D3). -/
def Obligations.IgnoredSelectorChangesNoResult : Prop :=
  ∀ (op : Bool → Instr), op ∈ [Instr.tenc, .tdec, .a1S, .a1Ms, .a1Hms, .a2M, .a2Hm] →
    ∀ s : State,
      (∀ r, Gives (op true) s r ↔ Gives (op false) s r) ∧
      (∀ fields, exec (op true) s = .fault (.fieldRange (encode (op true)) fields) ↔
        exec (op false) s = .fault (.fieldRange (encode (op false)) fields)) ∧
      encode (op true) = 0x10#5 ||| encode (op false)

/-- The shape of each operation's result: seven bytes for TENC, a decoded timestamp for TDEC, the
address byte 0x07 and four register bytes for Alarm 1, the address byte 0x0B and three register
bytes for Alarm 2 (10_state R20, 20_memory R34, R35, R39; the addresses and the tagged result are the
spec's decisions D2, D15 and D16). -/
def Obligations.ResultShapeByOperation : Prop :=
  ∀ (i : Instr) (s t : State), exec i s = .next t →
    ((∃ d, i = .tenc d) → ∃ out, t.out = some (.bytes out) ∧ out.length = 7 ∧ olen t.out = some 7#3) ∧
    ((∃ d, i = .tdec d) → ∃ dec, t.out = some (.decoded dec) ∧ olen t.out = none) ∧
    (i.channel = some .alarm1 → ∃ regs, t.out = some (.bytes (0x07#8 :: regs)) ∧ regs.length = 4 ∧
      olen t.out = some 5#3) ∧
    (i.channel = some .alarm2 → ∃ regs, t.out = some (.bytes (0x0B#8 :: regs)) ∧ regs.length = 3 ∧
      olen t.out = some 4#3)

/-! ### The Time Codec -/

/-- BCD packing in plain numbers, with the rule's examples (30_encoding R60, where the quotient and
remainder form is marked as the spec's reading of "tens" and "ones"). -/
def Obligations.BcdPacksTwoDecimalDigits : Prop :=
  (∀ v : Nat, v < 100 →
    (bcd2 v).toNat = 16 * (v / 10) + v % 10 ∧
    (bcd2 v).toNat / 16 = v / 10 ∧ (bcd2 v).toNat % 16 = v % 10 ∧ v / 10 ≤ 9 ∧ v % 10 ≤ 9) ∧
  bcd2 45 = 0x45#8 ∧ bcd2 99 = 0x99#8 ∧ bcd2 0 = 0x00#8

/-- TENC (40_time_codec R79): its words, the seven bytes for every timestamp in contract, the fault
for every other, and the rule's worked example. The words and the fault are the spec's decisions D3
and D5. -/
def Obligations.TencPacksTheTimeBlock : Prop :=
  (∀ c : Cmd, (∃ d, decodeCmd c = .ok (.tenc d)) ↔ c.toNat % 16 = 0) ∧
  (∀ (s : State) (d : Bool),
    s.ts.seconds < 100 → s.ts.minutes < 100 → s.ts.hour.value < 100 → s.ts.dayOfWeek < 100 →
    s.ts.dayOfMonth < 100 → s.ts.month < 100 → s.ts.year < 100 →
    Gives (.tenc d) s (.bytes
      [bcdByte s.ts.seconds, bcdByte s.ts.minutes, hoursByte s.ts.hour,
       BitVec.ofNat 8 (s.ts.dayOfWeek % 8), bcdByte s.ts.dayOfMonth,
       monthByte s.ts.month s.ts.isCentury, bcdByte s.ts.year])) ∧
  (∀ (s : State) (d : Bool),
    (100 ≤ s.ts.seconds ∨ 100 ≤ s.ts.minutes ∨ 100 ≤ s.ts.hour.value ∨ 100 ≤ s.ts.dayOfWeek ∨
      100 ≤ s.ts.dayOfMonth ∨ 100 ≤ s.ts.month ∨ 100 ≤ s.ts.year) →
    ∃ fields, exec (.tenc d) s = .fault (.fieldRange (encode (.tenc d)) fields)) ∧
  (∀ (s : State) (d : Bool), s.ts = ⟨45, 30, .h12 11 true, 3, 21, 6, 24, false⟩ →
    Gives (.tenc d) s (.bytes [0x45#8, 0x30#8, 0x71#8, 0x03#8, 0x21#8, 0x06#8, 0x24#8]))

/-- TDEC is total (40_time_codec R77): whatever the seven bytes, it gives a decoded timestamp and no
fault. -/
def Obligations.TdecGivesADecodedResultForEveryInput : Prop :=
  ∀ (s : State) (d : Bool), ∃ dec, Gives (.tdec d) s (.decoded dec)

/-- TDEC in plain numbers, under both profiles (40_time_codec R75, R76, R80; 30_encoding R62): the
hours byte is read under the mask its bit 6 selects, the meridiem is bit 5 in 12-hour mode only, and
bit 7 of the month byte is the century flag and no part of the month. The masks, the unread bits and
ones digits above 9 are the spec's decisions D7, D8 and D9. -/
def Obligations.TdecUnpacksTheTimeBlock : Prop :=
  ∀ (s : State) (d : Bool),
    Gives (.tdec d) s (.decoded
      { seconds := s.rb.b0.toNat % 16 +
          10 * (s.rb.b0.toNat / 16 % byProfile s.profile 8 16)
        minutes := s.rb.b1.toNat % 16 +
          10 * (s.rb.b1.toNat / 16 % byProfile s.profile 8 16)
        hour :=
          if s.rb.b2.toNat / 64 % 2 = 1 then
            .h12 (s.rb.b2.toNat % 16 + 10 * (s.rb.b2.toNat / 16 % 2))
              (decide (s.rb.b2.toNat / 32 % 2 = 1))
          else .h24 (s.rb.b2.toNat % 16 + 10 * (s.rb.b2.toNat / 16 % 4))
        dayOfWeek := s.rb.b3.toNat % 8
        dayOfMonth := s.rb.b4.toNat % 16 +
          10 * (s.rb.b4.toNat / 16 % byProfile s.profile 4 16)
        month := s.rb.b5.toNat % 16 +
          10 * (s.rb.b5.toNat / 16 % byProfile s.profile 2 8)
        year := s.rb.b6.toNat % 16 + 10 * (s.rb.b6.toNat / 16)
        isCentury := decide (128 ≤ s.rb.b5.toNat) })

/-- The decoded fields stay in the ranges of 10_state R21, and the byte 0xFF everywhere reaches
every bound but that of 24-hour mode, which 0x3F reaches. The spec marks the ranges as derived. -/
def Obligations.TdecStaysInItsRanges : Prop :=
  (∀ (s : State) (d : Bool), ∃ dec, Gives (.tdec d) s (.decoded dec) ∧
    DecodedInRange s.profile dec) ∧
  (∀ (s : State) (d : Bool), s.rb = ⟨0xFF, 0xFF, 0xFF, 0xFF, 0xFF, 0xFF, 0xFF⟩ →
    Gives (.tdec d) s (.decoded (byProfile s.profile
      ⟨85, 85, .h12 25 true, 7, 45, 25, 165, true⟩
      ⟨165, 165, .h12 25 true, 7, 165, 85, 165, true⟩))) ∧
  (∀ (s : State) (d : Bool), s.rb.b2 = 0x3F#8 →
    ∃ dec, Gives (.tdec d) s (.decoded dec) ∧ dec.hour = .h24 45)

/-- The bits TDEC ignores (40_time_codec R78, which the spec marks as derived, decisions D7 and D8):
two inputs that agree on every other bit give the same result. -/
def Obligations.TdecIgnoresUnreadBits : Prop :=
  ∀ (s t : State) (d : Bool), s.profile = t.profile →
    (∀ k < 7, s.rb.b0.getLsbD k = t.rb.b0.getLsbD k) →
    (s.profile = .wide → s.rb.b0.getLsbD 7 = t.rb.b0.getLsbD 7) →
    (∀ k < 7, s.rb.b1.getLsbD k = t.rb.b1.getLsbD k) →
    (s.profile = .wide → s.rb.b1.getLsbD 7 = t.rb.b1.getLsbD 7) →
    (∀ k < 7, s.rb.b2.getLsbD k = t.rb.b2.getLsbD k) →
    (∀ k < 3, s.rb.b3.getLsbD k = t.rb.b3.getLsbD k) →
    (∀ k < 6, s.rb.b4.getLsbD k = t.rb.b4.getLsbD k) →
    (s.profile = .wide → s.rb.b4.getLsbD 6 = t.rb.b4.getLsbD 6 ∧
      s.rb.b4.getLsbD 7 = t.rb.b4.getLsbD 7) →
    (∀ k < 5, s.rb.b5.getLsbD k = t.rb.b5.getLsbD k) →
    (s.profile = .wide → s.rb.b5.getLsbD 5 = t.rb.b5.getLsbD 5 ∧
      s.rb.b5.getLsbD 6 = t.rb.b5.getLsbD 6) →
    s.rb.b5.getLsbD 7 = t.rb.b5.getLsbD 7 →
    s.rb.b6 = t.rb.b6 →
    ∃ r, Gives (.tdec d) s r ∧ Gives (.tdec d) t r

/-- Seconds, minutes, day-of-month and year bytes as TENC writes and TDEC reads them (30_encoding R52,
R56): for valid values bit 7 of seconds and minutes and bits 7:6 of day-of-month are 0; the ones
digit is bits 3:0; the tens digit is bits 7:4, of which TDEC takes those its profile says, and all
four for the year. The masks are the spec's decision D7 (R62, log entry 1), ones digits above 9 its
decision D9 (R59, log entry 16), and quotient and remainder its reading of the digits (R60). -/
def Obligations.BcdBytesHaveTensHighAndOnesLow : Prop :=
  (∀ (s : State) (d : Bool), InContract (.tenc d) s.ts →
    ∃ b0 b1 b2 b3 b4 b5 b6 : Byte,
      Gives (.tenc d) s (.bytes [b0, b1, b2, b3, b4, b5, b6]) ∧
      (b0.extractLsb' 4 4).toNat = s.ts.seconds / 10 ∧ (b0.extractLsb' 0 4).toNat = s.ts.seconds % 10 ∧
      (b1.extractLsb' 4 4).toNat = s.ts.minutes / 10 ∧ (b1.extractLsb' 0 4).toNat = s.ts.minutes % 10 ∧
      (b4.extractLsb' 4 4).toNat = s.ts.dayOfMonth / 10 ∧
      (b4.extractLsb' 0 4).toNat = s.ts.dayOfMonth % 10 ∧
      (b6.extractLsb' 4 4).toNat = s.ts.year / 10 ∧ (b6.extractLsb' 0 4).toNat = s.ts.year % 10 ∧
      (s.ts.seconds ≤ 59 → b0.getLsbD 7 = false) ∧ (s.ts.minutes ≤ 59 → b1.getLsbD 7 = false) ∧
      (s.ts.dayOfMonth ≤ 31 → b4.getLsbD 7 = false ∧ b4.getLsbD 6 = false)) ∧
  (∀ (s : State) (d : Bool), ∃ dec, Gives (.tdec d) s (.decoded dec) ∧
    dec.seconds = (s.rb.b0.extractLsb' 0 4).toNat + 10 *
      byProfile s.profile (s.rb.b0.extractLsb' 4 3).toNat (s.rb.b0.extractLsb' 4 4).toNat ∧
    dec.minutes = (s.rb.b1.extractLsb' 0 4).toNat + 10 *
      byProfile s.profile (s.rb.b1.extractLsb' 4 3).toNat (s.rb.b1.extractLsb' 4 4).toNat ∧
    dec.dayOfMonth = (s.rb.b4.extractLsb' 0 4).toNat + 10 *
      byProfile s.profile (s.rb.b4.extractLsb' 4 2).toNat (s.rb.b4.extractLsb' 4 4).toNat ∧
    dec.year = (s.rb.b6.extractLsb' 0 4).toNat + 10 * (s.rb.b6.extractLsb' 4 4).toNat)

/-- The month byte (30_encoding R57, R66): as TENC writes it, bit 7 is the century flag, bits 6:4 the
tens digit and bits 3:0 the ones digit for a month below 80, and bits 6:5 are 0 for a valid month; as
TDEC reads it, bit 7 is the century flag and never part of the month, whose tens are the bits the
profile says (R62, the spec's decision D7, log entry 1), with ones digits above 9 passed through (R59,
its decision D9, log entry 16). -/
def Obligations.MonthByteCarriesTheCenturyFlag : Prop :=
  (∀ (s : State) (d : Bool), InContract (.tenc d) s.ts → s.ts.month < 80 →
    ∃ b0 b1 b2 b3 b4 b5 b6 : Byte,
      Gives (.tenc d) s (.bytes [b0, b1, b2, b3, b4, b5, b6]) ∧
      b5.getLsbD 7 = s.ts.isCentury ∧ (b5.extractLsb' 4 3).toNat = s.ts.month / 10 ∧
      (b5.extractLsb' 0 4).toNat = s.ts.month % 10 ∧
      (1 ≤ s.ts.month ∧ s.ts.month ≤ 12 → b5.getLsbD 6 = false ∧ b5.getLsbD 5 = false)) ∧
  (∀ (s : State) (d : Bool), ∃ dec, Gives (.tdec d) s (.decoded dec) ∧
    dec.isCentury = s.rb.b5.getLsbD 7 ∧
    dec.month = (s.rb.b5.extractLsb' 0 4).toNat + 10 *
      byProfile s.profile (s.rb.b5.extractLsb' 4 1).toNat (s.rb.b5.extractLsb' 4 3).toNat) ∧
  (∀ (s t : State) (d : Bool), s.profile = t.profile →
    t.rb = { s.rb with b5 := s.rb.b5 ^^^ 0x80#8 } →
    ∃ x y, Gives (.tdec d) s (.decoded x) ∧ Gives (.tdec d) t (.decoded y) ∧
      x.month = y.month ∧ x.isCentury ≠ y.isCentury)

/-- The hours byte (30_encoding R53, R54, R63, R64): as TENC writes it for hours valid in their mode,
bit 7 is 0, bit 6 is the mode, bits 3:0 the ones digit; the tens digit is bits 5:4 in 24-hour mode,
and in 12-hour mode bit 5 is the meridiem and bit 4 the tens digit. TDEC reads the same fields and
not bit 7. That bit 7 is not read is the spec's decision D8, ones digits above 9 its decision D9, the
tagged result its decision D11 (log entry 16). -/
def Obligations.HoursByteCarriesModeAndMeridiem : Prop :=
  (∀ (s : State) (d : Bool), InContract (.tenc d) s.ts → s.ts.hour.valid = true →
    ∃ b0 b1 b2 b3 b4 b5 b6 : Byte,
      Gives (.tenc d) s (.bytes [b0, b1, b2, b3, b4, b5, b6]) ∧
      b2.getLsbD 7 = false ∧
      match s.ts.hour with
      | .h24 h => b2.getLsbD 6 = false ∧ (b2.extractLsb' 4 2).toNat = h / 10 ∧
          (b2.extractLsb' 0 4).toNat = h % 10
      | .h12 h pm => b2.getLsbD 6 = true ∧ b2.getLsbD 5 = pm ∧
          (b2.extractLsb' 4 1).toNat = h / 10 ∧ (b2.extractLsb' 0 4).toNat = h % 10) ∧
  (∀ (s : State) (d : Bool), ∃ dec, Gives (.tdec d) s (.decoded dec) ∧
    (s.rb.b2.getLsbD 6 = true → dec.hour =
      .h12 ((s.rb.b2.extractLsb' 0 4).toNat + 10 * (s.rb.b2.extractLsb' 4 1).toNat)
        (s.rb.b2.getLsbD 5)) ∧
    (s.rb.b2.getLsbD 6 = false → dec.hour =
      .h24 ((s.rb.b2.extractLsb' 0 4).toNat + 10 * (s.rb.b2.extractLsb' 4 2).toNat)))

/-- The round trip of 40_time_codec R81, which the spec marks as derived: for every valid timestamp
and under either profile, TDEC of the bytes TENC gives is the timestamp. -/
def Obligations.ValidTimestampsRoundTrip : Prop :=
  ∀ (p : DecodeMaskProfile) (ts : Timestamp), ts.valid = true → RoundTrips p ts

/-- The exact round-trip domain of 40_time_codec R83, which the spec marks as derived: with every
other field valid, one field varied over 0 to 99 round-trips exactly on the rule's set for the
profile. -/
def Obligations.RoundTripDomainIsExact : Prop :=
  ∀ (p : DecodeMaskProfile) (ts : Timestamp) (v : Nat), ts.valid = true → v < 100 →
    (RoundTrips p { ts with seconds := v } ↔ byProfile p (v ≤ 79) True) ∧
    (RoundTrips p { ts with minutes := v } ↔ byProfile p (v ≤ 79) True) ∧
    (RoundTrips p { ts with dayOfMonth := v } ↔ byProfile p (v ≤ 39) True) ∧
    RoundTrips p { ts with year := v } ∧
    (∀ c : Bool, RoundTrips p { ts with month := v, isCentury := c } ↔
      byProfile p (v ≤ 19) (v ≤ 79)) ∧
    (RoundTrips p { ts with hour := .h24 v } ↔ v ≤ 39) ∧
    (∀ pm : Bool, RoundTrips p { ts with hour := .h12 v pm } ↔ v ≤ 19) ∧
    (RoundTrips p { ts with dayOfWeek := v } ↔ v ≤ 7)

/-- Profile agreement (40_time_codec R82, which the spec marks as derived): the profiles differ only
on bit 7 of seconds and minutes, bits 7:6 of day-of-month and bits 6:5 of month; where those are 0
both give the same result, and they are 0 in every block TENC gives for a valid timestamp. -/
def Obligations.ProfilesAgreeOnEncodedBlocks : Prop :=
  (∀ (s t : State) (d : Bool), s.rb = t.rb →
    s.rb.b0.getLsbD 7 = false → s.rb.b1.getLsbD 7 = false →
    s.rb.b4.getLsbD 7 = false → s.rb.b4.getLsbD 6 = false →
    s.rb.b5.getLsbD 6 = false → s.rb.b5.getLsbD 5 = false →
    ∃ r, Gives (.tdec d) s r ∧ Gives (.tdec d) t r) ∧
  (∀ (s : State) (d : Bool), s.ts.valid = true →
    ∃ b0 b1 b2 b3 b4 b5 b6 : Byte,
      Gives (.tenc d) s (.bytes [b0, b1, b2, b3, b4, b5, b6]) ∧
      b0.getLsbD 7 = false ∧ b1.getLsbD 7 = false ∧ b4.getLsbD 7 = false ∧ b4.getLsbD 6 = false ∧
      b5.getLsbD 6 = false ∧ b5.getLsbD 5 = false)

/-- TENC is not a left inverse of TDEC (40_time_codec R84, which the spec marks as derived): hours
byte 0x80 decodes to hour 0, which packs as 0x00, and year byte 0x9A decodes to year 100, on which
TENC faults. -/
def Obligations.EncodeAfterDecodeIsNotIdentity : Prop :=
  ∀ (s t : State) (d e : Bool) (dec : Timestamp), Gives (.tdec d) s (.decoded dec) → t.ts = dec →
    (s.rb = ⟨0, 0, 0x80, 0, 0, 0, 0⟩ →
      dec.hour = .h24 0 ∧ Gives (.tenc e) t (.bytes [0, 0, 0, 0, 0, 0, 0])) ∧
    (s.rb = ⟨0, 0, 0, 0, 0, 0, 0x9A⟩ →
      dec.year = 100 ∧ exec (.tenc e) t = .fault (.fieldRange (encode (.tenc e)) [.year]))

/-- The field spills of TENC (70_reset_and_hazards R134, which the spec marks as derived), exactly: which flag bits a tens digit
reaches, for every timestamp in contract. -/
def Obligations.TencTensDigitsSpillOntoFlags : Prop :=
  ∀ (s : State) (d : Bool), InContract (.tenc d) s.ts →
    ∃ b0 b1 b2 b3 b4 b5 b6 : Byte,
      Gives (.tenc d) s (.bytes [b0, b1, b2, b3, b4, b5, b6]) ∧
      (b0.getLsbD 7 = true ↔ 80 ≤ s.ts.seconds) ∧
      (b1.getLsbD 7 = true ↔ 80 ≤ s.ts.minutes) ∧
      (match s.ts.hour with
        | .h24 h => (b2.getLsbD 6 = true ↔ (40 ≤ h ∧ h ≤ 79)) ∧ (b2.getLsbD 7 = true ↔ 80 ≤ h)
        | .h12 h pm => b2.getLsbD 6 = true ∧
            (b2.getLsbD 5 = true ↔
              (pm = true ∨ h / 10 = 2 ∨ h / 10 = 3 ∨ h / 10 = 6 ∨ h / 10 = 7)) ∧
            (b2.getLsbD 7 = true ↔ 80 ≤ h)) ∧
      b3.toNat = s.ts.dayOfWeek % 8 ∧
      (b4.getLsbD 6 = true ↔ (40 ≤ s.ts.dayOfMonth ∧ s.ts.dayOfMonth ≤ 79)) ∧
      (b4.getLsbD 7 = true ↔ 80 ≤ s.ts.dayOfMonth) ∧
      (b5.getLsbD 7 = true ↔ (s.ts.isCentury = true ∨ 80 ≤ s.ts.month))

/-! ### The Alarm Codec: one statement per operation -/

/-- A1_S (41_alarm_codec R94, which the spec marks as derived from R86 and R87). -/
def Obligations.A1SMatchesSeconds : Prop :=
  ∀ (s : State) (d : Bool), s.ts.seconds < 100 →
    Gives (.a1S d) s (.bytes [0x07#8, bcdByte s.ts.seconds, 0x80#8, 0x80#8, 0x80#8])

/-- A1_MS (41_alarm_codec R95, which the spec marks as derived from R86 and R87). -/
def Obligations.A1MsMatchesMinutesSeconds : Prop :=
  ∀ (s : State) (d : Bool), s.ts.seconds < 100 → s.ts.minutes < 100 →
    Gives (.a1Ms d) s
      (.bytes [0x07#8, bcdByte s.ts.seconds, bcdByte s.ts.minutes, 0x80#8, 0x80#8])

/-- A1_HMS (41_alarm_codec R96, which the spec marks as derived from R86 and R87). -/
def Obligations.A1HmsMatchesHoursMinutesSeconds : Prop :=
  ∀ (s : State) (d : Bool), s.ts.seconds < 100 → s.ts.minutes < 100 → s.ts.hour.value < 100 →
    Gives (.a1Hms d) s
      (.bytes [0x07#8, bcdByte s.ts.seconds, bcdByte s.ts.minutes, hoursByte s.ts.hour, 0x80#8])

/-- A1_DHMS_DAY (41_alarm_codec R97, which the spec marks as derived): the selector bit 6, the spec's
decision D12 (log entry 14), is set and day-of-week is taken modulo 8. -/
def Obligations.A1DhmsDayMatchesDayOfWeek : Prop :=
  ∀ s : State, s.ts.seconds < 100 → s.ts.minutes < 100 → s.ts.hour.value < 100 →
    s.ts.dayOfWeek < 100 →
    Gives .a1DhmsDay s
      (.bytes [0x07#8, bcdByte s.ts.seconds, bcdByte s.ts.minutes, hoursByte s.ts.hour,
        BitVec.ofNat 8 (64 + s.ts.dayOfWeek % 8)])

/-- A1_DHMS_DATE (41_alarm_codec R98, which the spec marks as derived): the last byte is the date in BCD,
so the selector bit 6 is 0 for a valid date, which rests on the spec's decision D12, taken from
general knowledge (log entry 14). -/
def Obligations.A1DhmsDateMatchesDayOfMonth : Prop :=
  ∀ s : State, s.ts.seconds < 100 → s.ts.minutes < 100 → s.ts.hour.value < 100 →
    s.ts.dayOfMonth < 100 →
    Gives .a1DhmsDate s
      (.bytes [0x07#8, bcdByte s.ts.seconds, bcdByte s.ts.minutes, hoursByte s.ts.hour,
        bcdByte s.ts.dayOfMonth])

/-- A2_M (41_alarm_codec R99, which the spec marks as derived from R86 and R87). -/
def Obligations.A2MMatchesMinutes : Prop :=
  ∀ (s : State) (d : Bool), s.ts.minutes < 100 →
    Gives (.a2M d) s (.bytes [0x0B#8, bcdByte s.ts.minutes, 0x80#8, 0x80#8])

/-- A2_HM (41_alarm_codec R100, which the spec marks as derived from R86 and R87). -/
def Obligations.A2HmMatchesHoursMinutes : Prop :=
  ∀ (s : State) (d : Bool), s.ts.minutes < 100 → s.ts.hour.value < 100 →
    Gives (.a2Hm d) s (.bytes [0x0B#8, bcdByte s.ts.minutes, hoursByte s.ts.hour, 0x80#8])

/-- A2_DHM_DAY (41_alarm_codec R101, which the spec marks as derived): the selector bit 6, the spec's
decision D12 (log entry 14), is set and day-of-week is taken modulo 8. -/
def Obligations.A2DhmDayMatchesDayOfWeek : Prop :=
  ∀ s : State, s.ts.minutes < 100 → s.ts.hour.value < 100 → s.ts.dayOfWeek < 100 →
    Gives .a2DhmDay s
      (.bytes [0x0B#8, bcdByte s.ts.minutes, hoursByte s.ts.hour,
        BitVec.ofNat 8 (64 + s.ts.dayOfWeek % 8)])

/-- A2_DHM_DATE (41_alarm_codec R102, which the spec marks as derived): the last byte is the date in BCD,
so the selector bit 6 is 0 for a valid date, which rests on the spec's decision D12, taken from
general knowledge (log entry 14). -/
def Obligations.A2DhmDateMatchesDayOfMonth : Prop :=
  ∀ s : State, s.ts.minutes < 100 → s.ts.hour.value < 100 → s.ts.dayOfMonth < 100 →
    Gives .a2DhmDate s
      (.bytes [0x0B#8, bcdByte s.ts.minutes, hoursByte s.ts.hour, bcdByte s.ts.dayOfMonth])

/-! ### The Alarm Codec: laws over all nine operations -/

/-- An alarm operation reads `ts` and, with a day/date field only, `dysel`, and never `rb`: two states
with the same timestamp give the same outcome, whatever stands at `rb`, and the two words of an
operation without a day/date field give the same result. The result is 5 bytes long for Alarm 1
and 4 for Alarm 2 (41_alarm_codec R85). -/
def Obligations.AlarmReadsOnlyTimestampAndSelector : Prop :=
  (∀ (i : Instr) (s t : State), i.isAlarm = true → s.ts = t.ts →
    (∀ r, Gives i s r ↔ Gives i t r) ∧ ∀ f, exec i s = .fault f ↔ exec i t = .fault f) ∧
  (∀ (op : Bool → Instr), op ∈ [Instr.a1S, .a1Ms, .a1Hms, .a2M, .a2Hm] →
    ∀ (s : State) (r : Result), Gives (op true) s r ↔ Gives (op false) s r) ∧
  (∀ (i : Instr) (s t : State) (ch : Channel), i.channel = some ch → exec i s = .next t →
    ∃ out, t.out = some (.bytes out) ∧
      out.length = (match ch with | .alarm1 => 5 | .alarm2 => 4))

/-- The don't-care law (41_alarm_codec R103, which the spec marks as derived): with every included
field valid, bit 7 of a position's byte is set exactly when the position is excluded, and an
excluded byte is exactly 0x80. -/
def Obligations.DontCareBitsMarkExcludedFields : Prop :=
  ∀ (i : Instr) (ch : Channel) (s : State), i.channel = some ch → i.validAlarm s.ts = true →
    ∃ out, Gives i s (.bytes out) ∧
      ∀ (x : Position) (k : Nat), blockIndex ch x = some k →
        ∃ b, out[k]? = some b ∧ (b.getLsbD 7 = true ↔ x ∉ i.included) ∧
          (x ∉ i.included → b = 0x80#8)

/-- Included fields decode back (41_alarm_codec R104, which the spec marks as derived): with every
included field valid and under either profile, each included byte's decode view is its field of the
reference timestamp, and the day/date byte's selector bit is `dysel` (the spec's decision D12, log
entry 14). -/
def Obligations.IncludedFieldsDecodeBack : Prop :=
  ∀ (i : Instr) (ch : Channel) (s : State) (p : DecodeMaskProfile),
    i.channel = some ch → i.validAlarm s.ts = true →
    ∃ out, Gives i s (.bytes out) ∧
      ∀ (x : Position) (k : Nat), blockIndex ch x = some k → x ∈ i.included →
        ∃ b, out[k]? = some b ∧ DecodesBack p s.ts b x ∧
          (x = .dayDate → b.getLsbD 6 = i.dysel)

/-- The nesting law (41_alarm_codec R105, which the spec marks as derived): of two operations of one
channel applied to the same timestamp and selector, the coarser in contract, the finer completes too
and both give the same byte at every position the finer includes. -/
def Obligations.NestedPoliciesAgreeOnSharedFields : Prop :=
  ∀ (i j : Instr) (ch : Channel) (s t : State),
    i.channel = some ch → j.channel = some ch → i.included ⊆ j.included → i.dysel = j.dysel →
    s.ts = t.ts → InContract j t.ts →
    ∃ a b, Gives i s (.bytes a) ∧ Gives j t (.bytes b) ∧
      ∀ (x : Position) (k : Nat), blockIndex ch x = some k → x ∈ i.included → a[k]? = b[k]?

/-- The selector bit (41_alarm_codec R91, the spec's decision D12, log entry 14): with every included
field valid, bit 6 of the day/date byte is 1 exactly when the operation includes day/date and `dysel` is 1. -/
def Obligations.SelectorBitIsTheSelector : Prop :=
  ∀ (i : Instr) (ch : Channel) (s : State) (k : Nat), i.channel = some ch →
    blockIndex ch .dayDate = some k → i.validAlarm s.ts = true →
    ∃ out b, Gives i s (.bytes out) ∧ out[k]? = some b ∧
      (b.getLsbD 6 = true ↔ (Position.dayDate ∈ i.included ∧ i.dysel = true))

/-- The hours byte of an alarm operation is TENC's for the same hour, mode and meridiem included
(41_alarm_codec R90, and 30_encoding R69, the spec's decision D13). -/
def Obligations.AlarmHoursByteIsTheTimeCodecs : Prop :=
  ∀ (i : Instr) (ch : Channel) (s t : State) (k : Nat) (d : Bool), i.channel = some ch →
    Position.hours ∈ i.included → blockIndex ch .hours = some k → InContract i s.ts →
    InContract (.tenc d) t.ts → s.ts.hour = t.ts.hour →
    ∃ a b, Gives i s (.bytes a) ∧ Gives (.tenc d) t (.bytes b) ∧ a[k]? = b[2]? ∧ (b[2]?).isSome

/-- The field spills of the alarm operations (70_reset_and_hazards R134, which the spec marks as
derived), exactly: an included byte reads as don't-care for a tens digit of 8 or 9 (never in the day
form), the mode and meridiem bits of an included hours byte are reached as in TENC, and the date
form's selector bit is set for dates 40 to 79. No mask after packing is the spec's decision D13; the
selector bit rests on its decision D12, taken from general knowledge (log entry 14). -/
def Obligations.AlarmTensDigitsSpillOntoFlags : Prop :=
  ∀ (i : Instr) (ch : Channel) (s : State), i.channel = some ch → InContract i s.ts →
    ∃ out, Gives i s (.bytes out) ∧
      ∀ (x : Position) (k : Nat), blockIndex ch x = some k → x ∈ i.included →
        ∃ b, out[k]? = some b ∧
          match x with
          | .seconds => (b.getLsbD 7 = true ↔ 80 ≤ s.ts.seconds)
          | .minutes => (b.getLsbD 7 = true ↔ 80 ≤ s.ts.minutes)
          | .hours =>
            match s.ts.hour with
            | .h24 h => (b.getLsbD 6 = true ↔ (40 ≤ h ∧ h ≤ 79)) ∧ (b.getLsbD 7 = true ↔ 80 ≤ h)
            | .h12 h pm => b.getLsbD 6 = true ∧
                (b.getLsbD 5 = true ↔
                  (pm = true ∨ h / 10 = 2 ∨ h / 10 = 3 ∨ h / 10 = 6 ∨ h / 10 = 7)) ∧
                (b.getLsbD 7 = true ↔ 80 ≤ h)
          | .dayDate =>
            if i.dysel then b.toNat = 64 + s.ts.dayOfWeek % 8
            else (b.getLsbD 7 = true ↔ 80 ≤ s.ts.dayOfMonth) ∧
              (b.getLsbD 6 = true ↔ (40 ≤ s.ts.dayOfMonth ∧ s.ts.dayOfMonth ≤ 79))

/-! ### The harness -/

/-- A program step WRITE stores the output bytes from `first` on at consecutive addresses and leaves
every other register, the ports, the result and the record alone; the rest of the program is what
remains (30_encoding R71, the spec's decision D25). That the bytes stored go to the last one the
result defines (log entry 10), and that a step is the program's first step (log entry 5), are the
model's choices. -/
def Obligations.WriteStoresTheOutputBytes : Prop :=
  ∀ (s : State) (out : List Byte) (start : WriteStart) (a : Byte) (first : Nat)
      (rest : List HostStep),
    s.program = .write start first :: rest →
    s.out = some (.bytes out) → first < out.length →
    (match start with | .literal x => x = a | .outByte0 => out[0]? = some a) →
    a.toNat + (out.length - first) ≤ 0x13 →
    ∃ m, step s = .next { s with reg := m, program := rest } ∧
      (∀ j, first + j < out.length → Memory.read m (a.toNat + j) = out[first + j]?) ∧
      (∀ x, x < a.toNat ∨ a.toNat + (out.length - first) ≤ x →
        Memory.read m x = Memory.read s.reg x)

/-- A program step WRITE of an output byte the last result does not define, or beyond address 0x12,
is a harness fault, whether the start is a literal address or byte 0 of the output, which after TENC
may be any BCD byte (10_state R20, 30_encoding R71; that each is a fault, and the order of the
checks, are the model's reading, log entries 9 and 10). That a step is the program's first step is
the model's choice (log entry 5). -/
def Obligations.WriteFaultsOutsideOutputAndImage : Prop :=
  (∀ (s : State) (x : Byte) (first : Nat) (rest : List HostStep),
    s.program = .write (.literal x) first :: rest → (definedBytes s.out).length ≤ first →
    step s = .fault (.undefinedLane first)) ∧
  (∀ (s : State) (first : Nat) (rest : List HostStep),
    s.program = .write .outByte0 first :: rest → definedBytes s.out = [] →
    step s = .fault (.undefinedLane 0)) ∧
  (∀ (s : State) (first : Nat) (rest : List HostStep),
    s.program = .write .outByte0 first :: rest → definedBytes s.out ≠ [] →
    (definedBytes s.out).length ≤ first →
    step s = .fault (.undefinedLane first)) ∧
  (∀ (s : State) (out : List Byte) (start : WriteStart) (a : Byte) (first : Nat)
      (rest : List HostStep),
    s.program = .write start first :: rest →
    s.out = some (.bytes out) → first < out.length →
    (match start with | .literal x => x = a | .outByte0 => out[0]? = some a) →
    0x13 < a.toNat + (out.length - first) →
    step s = .fault (.outsideImage (max a.toNat 0x13)))

/-- A program step READ7 takes the seven registers of the time block to the `rb` port and changes
nothing else but that the rest of the program remains; if one of them is UNSET it is a harness fault
(30_encoding R71, the spec's decision D25), reported at the first such address (log entry 9). That a
step is the program's first step is the model's choice (log entry 5). -/
def Obligations.Read7TakesTheTimeBlock : Prop :=
  ∀ (s : State) (rest : List HostStep), s.program = .read7 :: rest →
    (∀ rb : RegBytes, (∀ k < 7, Memory.read s.reg k = rb.toList[k]?) →
      step s = .next { s with rb := rb, program := rest }) ∧
    (∀ k < 7, Memory.read s.reg k = none → (∀ j < k, Memory.read s.reg j ≠ none) →
      step s = .fault (.unsetRegister k))

/-- A block that WRITE stores at 0x00 is the block the READ7 after it reads back (20_memory R33,
R36; 95_test_vectors P1, steps 2 and 3). That WRITE goes to the last byte the result defines (log
entry 10), and that a step is the program's first step (log entry 5), are the model's choices. -/
def Obligations.WrittenTimeBlockReadsBack : Prop :=
  ∀ (s : State) (rb : RegBytes) (rest : List HostStep),
    s.program = .write (.literal 0x00#8) 0 :: .read7 :: rest → s.out = some (.bytes rb.toList) →
    ∃ m, step s = .next { s with reg := m, program := .read7 :: rest } ∧
      step { s with reg := m, program := .read7 :: rest } =
        .next { s with reg := m, rb := rb, program := rest }

/-- An alarm block written at the address its byte 0 names lands on its channel's registers, 0x07 to
0x0A or 0x0B to 0x0D, and on no other (20_memory R34, R35, 30_encoding R71, the spec's decisions D15
and D25). That WRITE goes to the last byte the result defines (log entry 10), and that a step is the
program's first step (log entry 5), are the model's choices. -/
def Obligations.AlarmBlockLandsOnItsRegisters : Prop :=
  ∀ (i : Instr) (ch : Channel) (s : State) (rest : List HostStep),
    s.program = .write .outByte0 1 :: rest → i.channel = some ch → InContract i s.ts →
    ∃ out m, Gives i s (.bytes out) ∧
      step { s with out := some (.bytes out) } =
        .next { s with out := some (.bytes out), reg := m, program := rest } ∧
      match ch with
      | .alarm1 => (∀ k < 4, Memory.read m (0x07 + k) = out[k + 1]? ∧ (out[k + 1]?).isSome) ∧
          ∀ x, x < 0x07 ∨ 0x0A < x → Memory.read m x = Memory.read s.reg x
      | .alarm2 => (∀ k < 3, Memory.read m (0x0B + k) = out[k + 1]? ∧ (out[k + 1]?).isSome) ∧
          ∀ x, x < 0x0B ∨ 0x0D < x → Memory.read m x = Memory.read s.reg x

/-- An assembled line (30_encoding R70, the spec's decision D21) standing first in the program
presents exactly the operands written, with the command word of its mnemonic, and the step runs that
operation: TENC gives its bytes in contract (40_time_codec R79) and its fault out of it
(60_exceptions R121, the spec's decision D5), TDEC its decoded timestamp (R77), an alarm line what
its operation gives; a fault is recorded and the harness goes on (60_exceptions R117, R123, its
decision D20; log entry 6). The command words are its decision D3. That TENC and TDEC lines carry 0
in bit 4 is the model's choice (log entry 12), as are what stands at the ports a line does not write
(log entries 4 and 11) and that a step is the program's first step (log entry 5). -/
def Obligations.AssembledLinesRunTheirOperation : Prop :=
  (∀ (s : State) (ts : Timestamp) (rest : List HostStep),
    s.program = assemble (.tenc ts.seconds ts.minutes ts.hour ts.dayOfWeek ts.dayOfMonth ts.month
      ts.year ts.isCentury) :: rest →
    ∃ t, Presented s 0x00#5 (.ofTimestamp ts) .asRead rest t ∧ t.ts = ts ∧
      (InContract (.tenc false) ts → step s = .next { t with out := some (.bytes
        [bcdByte ts.seconds, bcdByte ts.minutes, hoursByte ts.hour, BitVec.ofNat 8 (ts.dayOfWeek % 8),
          bcdByte ts.dayOfMonth, monthByte ts.month ts.isCentury, bcdByte ts.year]) }) ∧
      (¬ InContract (.tenc false) ts → ∃ fields,
        exec (.tenc false) t = .fault (.fieldRange 0x00#5 fields) ∧
        step s = .next (afterFailure t (.fieldRange 0x00#5 fields)))) ∧
  (∀ (s : State) (rb : RbOperand) (rest : List HostStep), s.program = assemble (.tdec rb) :: rest →
    ∃ t dec, Presented s 0x01#5 {} rb rest t ∧ Gives (.tdec false) t (.decoded dec) ∧
      step s = .next { t with out := some (.decoded dec) }) ∧
  (∀ (s : State) (op : Instr) (ts : TsOperands) (rest : List HostStep),
    s.program = assemble (.alarm op ts) :: rest →
    ∃ (c : Cmd) (t : State), decodeCmd c = .ok op ∧ Presented s c ts .asRead rest t ∧
      (∀ u, exec op t = .next u → step s = .next u) ∧
      (∀ d fields, exec op t = .fault (.fieldRange d fields) →
        step s = .next (afterFailure t (.fieldRange d fields))))

/-! ### The whole machine -/

/-- A step never changes the profile (70_reset_and_hazards R129) and never clears a recorded
failure: it adds one failure, which is then the result, or none (60_exceptions R117, R123; the
spec's decisions D7, D18, D20; log entry 6). What counts as a step is log entry 5. -/
def Obligations.StepKeepsProfileAndRecord : Prop :=
  ∀ s t : State, step s = .next t →
    t.profile = s.profile ∧
    (t.recorded = s.recorded ∨
      ∃ f, t.recorded = s.recorded ++ [f] ∧ t.out = some (.failed f))

/-- Only WRITE changes a register: a step that is an evaluation or READ7 leaves every byte of REG as
it was (10_state R13, R22; 30_encoding R71). What counts as a step is log entry 5. -/
def Obligations.OnlyWriteChangesRegisters : Prop :=
  ∀ s t : State, step s = .next t →
    (∀ start first rest, s.program ≠ .write start first :: rest) →
    ∀ a, Memory.read t.reg a = Memory.read s.reg a

/-- Evaluating never stops the machine: where the next step is an evaluation, with whatever command
word and inputs, there is a next state, and its result is bytes or a decoded timestamp, or a failure
that is newly recorded (10_state R20, 60_exceptions R117, R123, the spec's decisions D16 and D20;
log entry 6). That a step with no program left is an evaluation (log entry 5), and that an
evaluation which omits a field its operation reads runs on a free value, where 70_reset_and_hazards
R131 has the caller present it (log entry 4), are the model's choices. -/
def Obligations.EvaluationNeverStops : Prop :=
  ∀ s : State,
    (s.program = [] ∨ ∃ cmd ts rb rest, s.program = .evaluate cmd ts rb :: rest) →
    ∃ t, step s = .next t ∧
      ((∃ out, t.out = some (.bytes out) ∧ t.recorded = s.recorded) ∨
       (∃ dec, t.out = some (.decoded dec) ∧ t.recorded = s.recorded) ∨
       (∃ f, t.out = some (.failed f) ∧ t.recorded = s.recorded ++ [f]))

/-- The invariant every step keeps, from every state that meets it: REG stays inside 0x00 to 0x12
and in the canonical form, which is the model's (log entry 9); the result has the shape of an
operation's result (a byte result its length and, for an alarm, its address byte), with decoded
fields in the ranges of 10_state R21 and a failed result on record; and every recorded failure is
one that 60_exceptions R120 allows, its fields listed in the operation's order, which is the model's
form of a set without order (log entry 13). That a failure is a next state, as the result and on
record, is log entry 6. The spec marks R21 as derived and R120 as its decisions D4, D5 and D20. What
counts as a step is log entry 5. -/
def Obligations.StepKeepsInvariant : Prop :=
  ∀ s t : State, s.Inv → step s = .next t → t.Inv

/-- The reset state meets the invariant. That it has no result is the model's choice (log entry 3).
-/
def Obligations.ResetMeetsInvariant : Prop :=
  State.reset.Inv

/-- Reset leaves every register of REG unset, no failure recorded, no result and no program
(95_test_vectors section 5, 70_reset_and_hazards R128); the program and the result are the model's
(log entries 3 and 5). -/
def Obligations.ResetLeavesNothingWritten : Prop :=
  (∀ a, Memory.read State.reset.reg a = none) ∧ State.reset.Clean ∧ State.reset.out = none ∧
  State.reset.program = []

/-- The first evaluation after reset is defined for every command word (70_reset_and_hazards R130):
each of the 18 words with an operation gives the result of exec at the presented word, with nothing
recorded, and each reserved word its refusal, recorded (30_encoding R50, 60_exceptions R119, R123,
the spec's decisions D4 and D20; log entry 6). The spec marks R130 as derived. The inputs at the
ports are the model's choice (log entry 2), as are how the word is presented (log entry 7) and that
a step with no program left evaluates the ports (log entry 5). -/
def Obligations.FirstEvaluationIsDefined : Prop :=
  ∀ w < 32, ∃ t, step (State.reset.withFetchWord 8 w) = .next t ∧
    (w % 16 ≤ 8 → ∃ i r, decodeTableWord 8 w = some i ∧
      Gives i (State.reset.withFetchWord 8 w) r ∧
      t = { State.reset.withFetchWord 8 w with out := some r } ∧ t.Clean) ∧
    (9 ≤ w % 16 → t.out = some (.failed (.reservedCommand (BitVec.ofNat 5 w))) ∧
      t.recorded = [.reservedCommand (BitVec.ofNat 5 w)])

/-- Along any run, from any state, no recorded failure is ever cleared (60_exceptions R123, the
spec's decision D20, log entry 6): what is on record after some steps is still on record, in the
same order, after more, and where nothing is newly recorded at the end nothing was on the way. What
counts as a step is log entry 5. -/
def Obligations.RecordedFailuresSurviveEveryRun : Prop :=
  ∀ (n k : Nat) (s t : State), RunsTo (n + k) s t →
    ∃ u : State, RunsTo n s u ∧ RunsTo k u t ∧ u.profile = s.profile ∧ t.profile = s.profile ∧
      s.recorded <+: u.recorded ∧ u.recorded <+: t.recorded ∧
      (t.recorded = s.recorded → SafeRun n s ∧ SafeRun k u)
end

