-- ==== Sys2Proof/Laws/State.lean ====
section
/-!
SUPPORT. One lemma per field per update of State, so that no proof unfolds a record update.
-/

namespace Sys2Proof.Machine.State

variable (s : State)

section withOut
variable (r : Result)
@[simp] theorem withOut_profile : (s.withOut r).profile = s.profile := rfl
@[simp] theorem withOut_cmd : (s.withOut r).cmd = s.cmd := rfl
@[simp] theorem withOut_ts : (s.withOut r).ts = s.ts := rfl
@[simp] theorem withOut_rb : (s.withOut r).rb = s.rb := rfl
@[simp] theorem withOut_out : (s.withOut r).out = some r := rfl
@[simp] theorem withOut_reg : (s.withOut r).reg = s.reg := rfl
@[simp] theorem withOut_program : (s.withOut r).program = s.program := rfl
@[simp] theorem withOut_recorded : (s.withOut r).recorded = s.recorded := rfl
@[simp] theorem withOut_undriven : (s.withOut r).undriven = s.undriven := rfl
end withOut

section fail
variable (f : Failure)
@[simp] theorem fail_profile : (s.fail f).profile = s.profile := rfl
@[simp] theorem fail_cmd : (s.fail f).cmd = s.cmd := rfl
@[simp] theorem fail_ts : (s.fail f).ts = s.ts := rfl
@[simp] theorem fail_rb : (s.fail f).rb = s.rb := rfl
@[simp] theorem fail_out : (s.fail f).out = some (.failed f) := rfl
@[simp] theorem fail_reg : (s.fail f).reg = s.reg := rfl
@[simp] theorem fail_program : (s.fail f).program = s.program := rfl
@[simp] theorem fail_recorded : (s.fail f).recorded = s.recorded ++ [f] := rfl
@[simp] theorem fail_undriven : (s.fail f).undriven = s.undriven := rfl
end fail

section drive
variable (cmd : Cmd) (ts : TsOperands) (rb : RbOperand)
@[simp] theorem drive_profile : (s.drive cmd ts rb).profile = s.profile := rfl
@[simp] theorem drive_cmd : (s.drive cmd ts rb).cmd = cmd := rfl
@[simp] theorem drive_ts :
    (s.drive cmd ts rb).ts = driveTs (Config.undrivenTs s.undriven) ts := rfl
@[simp] theorem drive_rb : (s.drive cmd ts rb).rb = driveRb s.rb rb := rfl
@[simp] theorem drive_out : (s.drive cmd ts rb).out = s.out := rfl
@[simp] theorem drive_reg : (s.drive cmd ts rb).reg = s.reg := rfl
@[simp] theorem drive_program : (s.drive cmd ts rb).program = s.program := rfl
@[simp] theorem drive_recorded : (s.drive cmd ts rb).recorded = s.recorded := rfl
@[simp] theorem drive_undriven : (s.drive cmd ts rb).undriven = s.undriven + 1 := rfl
end drive

section withRb
variable (rb : RegBytes)
@[simp] theorem withRb_profile : (s.withRb rb).profile = s.profile := rfl
@[simp] theorem withRb_cmd : (s.withRb rb).cmd = s.cmd := rfl
@[simp] theorem withRb_ts : (s.withRb rb).ts = s.ts := rfl
@[simp] theorem withRb_rb : (s.withRb rb).rb = rb := rfl
@[simp] theorem withRb_out : (s.withRb rb).out = s.out := rfl
@[simp] theorem withRb_reg : (s.withRb rb).reg = s.reg := rfl
@[simp] theorem withRb_program : (s.withRb rb).program = s.program := rfl
@[simp] theorem withRb_recorded : (s.withRb rb).recorded = s.recorded := rfl
@[simp] theorem withRb_undriven : (s.withRb rb).undriven = s.undriven := rfl
end withRb

section withReg
variable (m : Memory)
@[simp] theorem withReg_profile : (s.withReg m).profile = s.profile := rfl
@[simp] theorem withReg_cmd : (s.withReg m).cmd = s.cmd := rfl
@[simp] theorem withReg_ts : (s.withReg m).ts = s.ts := rfl
@[simp] theorem withReg_rb : (s.withReg m).rb = s.rb := rfl
@[simp] theorem withReg_out : (s.withReg m).out = s.out := rfl
@[simp] theorem withReg_reg : (s.withReg m).reg = m := rfl
@[simp] theorem withReg_program : (s.withReg m).program = s.program := rfl
@[simp] theorem withReg_recorded : (s.withReg m).recorded = s.recorded := rfl
@[simp] theorem withReg_undriven : (s.withReg m).undriven = s.undriven := rfl
end withReg

section withProgram
variable (p : List HostStep)
@[simp] theorem withProgram_profile : (s.withProgram p).profile = s.profile := rfl
@[simp] theorem withProgram_cmd : (s.withProgram p).cmd = s.cmd := rfl
@[simp] theorem withProgram_ts : (s.withProgram p).ts = s.ts := rfl
@[simp] theorem withProgram_rb : (s.withProgram p).rb = s.rb := rfl
@[simp] theorem withProgram_out : (s.withProgram p).out = s.out := rfl
@[simp] theorem withProgram_reg : (s.withProgram p).reg = s.reg := rfl
@[simp] theorem withProgram_program : (s.withProgram p).program = p := rfl
@[simp] theorem withProgram_recorded : (s.withProgram p).recorded = s.recorded := rfl
@[simp] theorem withProgram_undriven : (s.withProgram p).undriven = s.undriven := rfl
end withProgram

end Sys2Proof.Machine.State
end

