-- ==== Sys2Proof/Laws/Memory.lean ====
section
/-!
SUPPORT. The laws of the register image: a read after a write, the canonical form kept, and what
storing several bytes does.
-/

namespace Sys2Proof.Machine.Memory

@[simp] theorem read_nil (a : Nat) : Memory.read [] a = none := rfl

theorem read_write_same (m : Memory) (a : Nat) (b : Byte) : (m.write a b).read a = some b := by
  induction m with
  | nil => simp [Memory.write, Memory.read]
  | cons c m ih =>
    obtain ⟨k, v⟩ := c
    simp only [Memory.write]
    split
    · simp [Memory.read]
    · split
      · simp [Memory.read]
      · have : k ≠ a := fun h => by omega
        simp [Memory.read, this, ih]

theorem read_write_other (m : Memory) {a x : Nat} (b : Byte) (h : x ≠ a) :
    (m.write a b).read x = m.read x := by
  have h' : a ≠ x := fun e => h e.symm
  induction m with
  | nil => simp [Memory.write, Memory.read, h']
  | cons c m ih =>
    obtain ⟨k, v⟩ := c
    simp only [Memory.write]
    split
    · simp [Memory.read, h']
    · split
      · have : k ≠ x := fun e => by omega
        simp [Memory.read, h', this]
      · by_cases hk : k = x <;> simp [Memory.read, hk, ih]

/-- A read after a write, in one line. -/
theorem read_write (m : Memory) (a x : Nat) (b : Byte) :
    (m.write a b).read x = if x = a then some b else m.read x := by
  split
  · next h => rw [h, read_write_same]
  · next h => exact read_write_other m b h

theorem mem_write {m : Memory} {a : Nat} {b : Byte} {c : Host.Cell} (h : c ∈ m.write a b) :
    c = (a, b) ∨ c ∈ m := by
  induction m with
  | nil => simpa [Memory.write] using h
  | cons d m ih =>
    obtain ⟨k, v⟩ := d
    simp only [Memory.write] at h
    split at h
    · simpa using h
    · split at h
      · rcases List.mem_cons.1 h with h | h
        · exact .inl h
        · exact .inr (List.mem_cons_of_mem _ h)
      · rcases List.mem_cons.1 h with h | h
        · exact .inr (by simp [h])
        · exact (ih h).imp_right (List.mem_cons_of_mem _)

theorem wf_nil : Memory.wf [] := ⟨.nil, by simp⟩

/-- Setting a byte inside the image keeps the canonical form. -/
theorem wf_write {m : Memory} (h : m.wf) {a : Nat} (ha : a ≤ lastAddress) (b : Byte) :
    (m.write a b).wf := by
  refine ⟨?_, fun c hc => ?_⟩
  · have hp := h.1
    clear h
    induction m with
    | nil => simp [Memory.write]
    | cons d m ih =>
      obtain ⟨k, v⟩ := d
      obtain ⟨hk, hm⟩ := List.pairwise_cons.1 hp
      simp only [Memory.write]
      split
      · next hlt =>
        refine List.pairwise_cons.2 ⟨fun c hc => ?_, hp⟩
        rcases List.mem_cons.1 hc with rfl | hc
        · exact hlt
        · exact Nat.lt_trans hlt (hk c hc)
      · split
        · next heq =>
          subst heq
          exact List.pairwise_cons.2 ⟨hk, hm⟩
        · refine List.pairwise_cons.2 ⟨fun c hc => ?_, ih hm⟩
          rcases mem_write hc with rfl | hc
          · show k < a
            omega
          · exact hk c hc
  · rcases mem_write hc with rfl | hc
    · exact ha
    · exact h.2 c hc

/-- What storing several bytes does when it succeeds: they are inside the image, each address reads
its byte, every other reads as before, and the canonical form is kept. -/
theorem writeBytes_ok {m m' : Memory} {a : Nat} {bs : List Byte}
    (h : m.writeBytes a bs = .ok m') :
    (bs = [] ∨ a + bs.length ≤ lastAddress + 1) ∧
    (∀ x, m'.read x = if a ≤ x ∧ x < a + bs.length then bs[x - a]? else m.read x) ∧
    (m.wf → m'.wf) := by
  induction bs generalizing m a with
  | nil =>
    simp only [Memory.writeBytes, Except.ok.injEq] at h
    subst h
    exact ⟨.inl rfl, fun x => by simp, id⟩
  | cons b bs ih =>
    simp only [Memory.writeBytes] at h
    split at h
    · next ha =>
      obtain ⟨h1, h2, h3⟩ := ih h
      refine ⟨.inr ?_, fun x => ?_, fun hw => h3 (wf_write hw ha b)⟩
      · rcases h1 with rfl | h1
        · simpa using ha
        · simp only [List.length_cons]
          omega
      · rw [h2, read_write]
        simp only [List.length_cons]
        by_cases hx : x = a
        · subst hx
          simp
        · by_cases hy : a + 1 ≤ x ∧ x < a + 1 + bs.length
          · have e : x - a = (x - (a + 1)) + 1 := by omega
            rw [if_pos hy, if_pos (by omega), e, List.getElem?_cons_succ]
          · rw [if_neg hy, if_neg hx, if_neg (by omega)]
    · simp at h

/-- Storing bytes that fit in the image succeeds. -/
theorem writeBytes_fits (m : Memory) {a : Nat} {bs : List Byte}
    (h : bs = [] ∨ a + bs.length ≤ lastAddress + 1) : ∃ m', m.writeBytes a bs = .ok m' := by
  induction bs generalizing m a with
  | nil => exact ⟨m, rfl⟩
  | cons b bs ih =>
    simp only [List.length_cons] at h
    have ha : a ≤ lastAddress := by
      rcases h with h | h
      · simp at h
      · omega
    simp only [Memory.writeBytes, ha, if_true]
    refine ih (m.write a b) (.inr ?_)
    rcases h with h | h
    · simp at h
    · omega

/-- Storing bytes that leave the image faults at the first address outside it. -/
theorem writeBytes_outside (m : Memory) {a : Nat} {bs : List Byte} (hne : bs ≠ [])
    (h : lastAddress + 1 < a + bs.length) :
    m.writeBytes a bs = .error (.outsideImage (max a (lastAddress + 1))) := by
  induction bs generalizing m a with
  | nil => simp at hne
  | cons b bs ih =>
    simp only [List.length_cons] at h
    simp only [Memory.writeBytes]
    split
    · next ha =>
      have hb : bs ≠ [] := by
        rintro rfl
        simp at h
        omega
      rw [ih (m.write a b) hb (by omega)]
      congr 2
      omega
    · congr 2
      omega

theorem get_ok {m : Memory} {a : Nat} {b : Byte} (h : m.read a = some b) : m.get a = .ok b := by
  simp [Memory.get, h]

theorem get_unset {m : Memory} {a : Nat} (h : m.read a = none) :
    m.get a = .error (.unsetRegister a) := by
  simp [Memory.get, h]

end Sys2Proof.Machine.Memory
end

