-- ==== Sys2Proof/Laws/Ops.lean ====
section
/-!
SUPPORT. What each shared operation can do, once: the contract check, the encoders' ending, recording
an outcome, and the host steps.
-/

namespace Sys2Proof.Machine

theorem mem_offending {checked : List Field} {ts : Timestamp} {f : Field} :
    f ∈ offending checked ts ↔ f ∈ checked ∧ 100 ≤ fieldValue ts f := by
  simp [offending]

theorem offending_eq_nil {checked : List Field} {ts : Timestamp} :
    offending checked ts = [] ↔ ∀ f ∈ checked, fieldValue ts f < 100 := by
  simp [offending]

theorem offending_sublist (checked : List Field) (ts : Timestamp) :
    (offending checked ts).Sublist checked := List.filter_sublist

/-- In contract the encoders give their bytes and change nothing else. -/
theorem encodeResult_ok {cmd : Cmd} {checked : List Field} {out : List Byte} {s : State}
    (h : ∀ f ∈ checked, fieldValue s.ts f < 100) :
    encodeResult cmd checked out s = .next (s.withOut (.bytes out)) := by
  simp [encodeResult, offending_eq_nil.2 h]

/-- Out of contract they give the fault and nothing else. -/
theorem encodeResult_fault {cmd : Cmd} {checked : List Field} {out : List Byte} {s : State}
    (h : ¬ ∀ f ∈ checked, fieldValue s.ts f < 100) :
    encodeResult cmd checked out s = .fault (.fieldRange cmd (offending checked s.ts)) := by
  simp [encodeResult, mt offending_eq_nil.1 h]

/-- The alarm encoders in contract. -/
theorem alarmEncode_ok {cmd : Cmd} {ch : Channel} {included : List Position} {dysel : Bool}
    {s : State} (h : ∀ x ∈ included, fieldValue s.ts (positionField dysel x) < 100) :
    alarmEncode cmd ch included dysel s =
      .next (s.withOut (.bytes (alarmBytes ch included s.ts dysel))) :=
  encodeResult_ok (by simpa using h)

@[simp] theorem recordOutcome_next (s t : State) : recordOutcome s (.next t) = .next t := rfl

@[simp] theorem recordOutcome_fieldRange (s : State) (cmd : Cmd) (fields : List Field) :
    recordOutcome s (.fault (.fieldRange cmd fields)) = .next (s.fail (.fieldRange cmd fields)) :=
  rfl

@[simp] theorem recordOutcome_reserved (s : State) (cmd : Cmd) :
    recordOutcome s (.refused (.reservedCommand cmd)) = .next (s.fail (.reservedCommand cmd)) :=
  rfl

@[simp] theorem harnessOutcome_ok (s : State) : harnessOutcome (.ok s) = .next s := rfl

@[simp] theorem harnessOutcome_error (f : Fault) : harnessOutcome (.error f) = .fault f := rfl

theorem harnessOutcome_eq_next {r : Except Fault State} {t : State} (h : harnessOutcome r = .next t) :
    r = .ok t := by
  cases r <;> simp_all [harnessOutcome]

/-- What a WRITE that succeeds does: nothing but the register image changes, and that is the output
bytes stored from the start address on. -/
theorem hostWrite_next {start : WriteStart} {first : Nat} {s t : State}
    (h : hostWrite start first s = .next t) :
    ∃ a m, startAddress start s.out = .ok a ∧
      s.reg.writeBytes a.toNat ((definedBytes s.out).drop first) = .ok m ∧ t = s.withReg m := by
  have h := harnessOutcome_eq_next h
  cases ha : startAddress start s.out with
  | error e => simp [ha, bind, Except.bind] at h
  | ok a =>
    cases hb : outByte s.out first with
    | error e => simp [ha, hb, bind, Except.bind] at h
    | ok b =>
      cases hm : s.reg.writeBytes a.toNat ((definedBytes s.out).drop first) with
      | error e => simp [ha, hb, hm, bind, Except.bind] at h
      | ok m =>
        simp [ha, hb, hm, bind, Except.bind, pure, Except.pure] at h
        exact ⟨a, m, rfl, hm, h.symm⟩

/-- A WRITE whose start, first lane and addresses all exist succeeds. -/
theorem hostWrite_ok {start : WriteStart} {first : Nat} {s : State} {a b : Byte} {m : Memory}
    (ha : startAddress start s.out = .ok a) (hb : outByte s.out first = .ok b)
    (hm : s.reg.writeBytes a.toNat ((definedBytes s.out).drop first) = .ok m) :
    hostWrite start first s = .next (s.withReg m) := by
  simp only [hostWrite, ha, hb, hm, bind, Except.bind, pure, Except.pure, harnessOutcome_ok]

/-- What a READ7 that succeeds does: nothing but the `rb` port changes. -/
theorem hostRead7_next {s t : State} (h : hostRead7 s = .next t) :
    ∃ rb, s.reg.read7 = .ok rb ∧ t = s.withRb rb := by
  have h := harnessOutcome_eq_next h
  cases hr : s.reg.read7 with
  | error e => simp [hr, bind, Except.bind] at h
  | ok rb =>
    simp [hr, bind, Except.bind, pure, Except.pure] at h
    exact ⟨rb, rfl, h.symm⟩

end Sys2Proof.Machine
end

