-- ==== Sys2Proof/Laws/PerInstr.lean ====
section
/-!
SUPPORT. Facts about every operation as syntax, one lemma per constructor.
-/

namespace Sys2Proof.Laws.ContractCoversEncodedFields

open Sys2Proof.Machine

/-- The fields an alarm operation's contract check covers are those behind its included positions,
under its selector (41_alarm_codec R88); every operation's command word is unreserved. -/
def Statement (i : Instr) : Prop :=
  (i.isAlarm = true → i.reads = i.included.map (positionField i.dysel)) ∧
  (encode i).toNat % 16 ≤ 8

theorem tenc (dysel : Bool) : Statement (.tenc dysel) := ⟨nofun, by cases dysel <;> decide⟩
theorem tdec (dysel : Bool) : Statement (.tdec dysel) := ⟨nofun, by cases dysel <;> decide⟩
theorem a1S (dysel : Bool) : Statement (.a1S dysel) := ⟨fun _ => rfl, by cases dysel <;> decide⟩
theorem a1Ms (dysel : Bool) : Statement (.a1Ms dysel) := ⟨fun _ => rfl, by cases dysel <;> decide⟩
theorem a1Hms (dysel : Bool) : Statement (.a1Hms dysel) := ⟨fun _ => rfl, by cases dysel <;> decide⟩
theorem a1DhmsDay : Statement .a1DhmsDay := ⟨fun _ => rfl, by decide⟩
theorem a1DhmsDate : Statement .a1DhmsDate := ⟨fun _ => rfl, by decide⟩
theorem a2M (dysel : Bool) : Statement (.a2M dysel) := ⟨fun _ => rfl, by cases dysel <;> decide⟩
theorem a2Hm (dysel : Bool) : Statement (.a2Hm dysel) := ⟨fun _ => rfl, by cases dysel <;> decide⟩
theorem a2DhmDay : Statement .a2DhmDay := ⟨fun _ => rfl, by decide⟩
theorem a2DhmDate : Statement .a2DhmDate := ⟨fun _ => rfl, by decide⟩

end Sys2Proof.Laws.ContractCoversEncodedFields
end

