-- ==== Sys2Proof/Laws/Step.lean ====
section
/-!
SUPPORT. What a step is, by what stands first in the program, and everything a step with a next state
can have done.
-/

namespace Sys2Proof.Machine

theorem evaluatePorts_ok {s : State} {i : Instr} (h : decodeCmd s.cmd = .ok i) :
    evaluatePorts s = recordOutcome s (exec i s) := by
  simp [evaluatePorts, h]

theorem evaluatePorts_error {s : State} {e : DecodeError} (h : decodeCmd s.cmd = .error e) :
    evaluatePorts s = .next (s.fail (.reservedCommand s.cmd)) := by
  simp [evaluatePorts, h]

theorem step_ports {s : State} (h : s.program = []) : step s = evaluatePorts s := by
  simp [step, h]

theorem step_program {s : State} {h : HostStep} {rest : List HostStep} (hp : s.program = h :: rest) :
    step s = runHostStep h (s.withProgram rest) := by
  simp [step, hp]

theorem step_evaluate {s : State} {cmd : Cmd} {ts : TsOperands} {rb : RbOperand}
    {rest : List HostStep} {i : Instr} (hp : s.program = .evaluate cmd ts rb :: rest)
    (h : decodeCmd cmd = .ok i) :
    step s = recordOutcome ((s.withProgram rest).drive cmd ts rb)
      (exec i ((s.withProgram rest).drive cmd ts rb)) :=
  (step_program hp).trans (evaluatePorts_ok h)

/-- What presenting an evaluation's inputs does, which is all that statements say of it. -/
theorem presented_drive (s : State) (cmd : Cmd) (ts : TsOperands) (rb : RbOperand)
    (rest : List HostStep) : Presented s cmd ts rb rest ((s.withProgram rest).drive cmd ts rb) := by
  constructor <;>
    simp +contextual [State.drive, State.withProgram, driveTs, driveRb]

/-- A step with a next state is an evaluation of the ports, of those a program's evaluation presents,
a WRITE or a READ7, and a host step changes only the register image or the `rb` port beside the
program. -/
theorem step_cases {s t : State} (h : step s = .next t) :
    (s.program = [] ∧ evaluatePorts s = .next t) ∨
    (∃ cmd ts rb rest, s.program = .evaluate cmd ts rb :: rest ∧
      evaluatePorts ((s.withProgram rest).drive cmd ts rb) = .next t) ∨
    (∃ start first rest a m, s.program = .write start first :: rest ∧
      startAddress start s.out = .ok a ∧
      s.reg.writeBytes a.toNat ((definedBytes s.out).drop first) = .ok m ∧
      t = (s.withProgram rest).withReg m) ∨
    (∃ rest rb, s.program = .read7 :: rest ∧ s.reg.read7 = .ok rb ∧
      t = (s.withProgram rest).withRb rb) := by
  cases hp : s.program with
  | nil => exact .inl ⟨rfl, step_ports hp ▸ h⟩
  | cons x rest =>
    rw [step_program hp] at h
    cases x with
    | evaluate cmd ts rb => exact .inr (.inl ⟨cmd, ts, rb, rest, rfl, h⟩)
    | write start first =>
      obtain ⟨a, m, ha, hm, ht⟩ := hostWrite_next h
      exact .inr (.inr (.inl ⟨start, first, rest, a, m, rfl, ha, hm, ht⟩))
    | read7 =>
      obtain ⟨rb, hr, ht⟩ := hostRead7_next h
      exact .inr (.inr (.inr ⟨rest, rb, rfl, hr, ht⟩))

end Sys2Proof.Machine
end

