-- ==== Sys2Proof/Tests/Slice0.lean ====
section
/-!
SUPPORT. The model's own tests: what WellFormed refuses, words written out from 30_encoding R48, the
vectors of 95_test_vectors (each test names its vector), and a witness for the hypotheses of every
statement that has some.
-/

namespace Sys2Proof.Tests

open Sys2Proof.Machine

/-- The reference timestamp of 95_test_vectors 4.3, with a valid month and year. -/
def ref : Timestamp := ⟨12, 34, .h12 5 true, 2, 17, 6, 24, false⟩

def zeros : RegBytes := ⟨0, 0, 0, 0, 0, 0, 0⟩

/-- A small state with the fields a test cares about. -/
def st (ts : Timestamp := ref) (p : DecodeMaskProfile := .narrow) (rb : RegBytes := zeros)
    (cmd : Cmd := 0) (out : Option Result := none) (reg : Memory := [])
    (program : List HostStep := []) : State :=
  ⟨p, cmd, ts, rb, out, reg, program, [], 0⟩

/-- The result and the failures recorded in a next state. -/
def seen : Host.Outcome State Fault Refusal → Option (Option Result × List Failure)
  | .next t => some (t.out, t.recorded)
  | _ => none

def regAfter : Host.Outcome State Fault Refusal → Option Memory
  | .next t => some t.reg
  | _ => none

def programAfter : Host.Outcome State Fault Refusal → Option (List HostStep)
  | .next t => some t.program
  | _ => none

def faultOf : Host.Outcome State Fault Refusal → Option Fault
  | .fault f => some f
  | _ => none

/-! ### WellFormed refuses -/

theorem test_valid_seconds : ({ ref with seconds := 60 } : Timestamp).valid = false := by decide
theorem test_valid_minutes : ({ ref with minutes := 60 } : Timestamp).valid = false := by decide
theorem test_valid_hour24 : ({ ref with hour := .h24 24 } : Timestamp).valid = false := by decide
theorem test_valid_hour12 : ({ ref with hour := .h12 0 true } : Timestamp).valid = false := by decide
theorem test_valid_dayOfWeek : ({ ref with dayOfWeek := 8 } : Timestamp).valid = false := by decide
theorem test_valid_dayOfMonth : ({ ref with dayOfMonth := 0 } : Timestamp).valid = false := by decide
theorem test_valid_month : ({ ref with month := 13 } : Timestamp).valid = false := by decide
theorem test_valid_year : ({ ref with year := 100 } : Timestamp).valid = false := by decide
theorem test_validAlarm_looks_at_encoded_fields_only :
    Instr.validAlarm .a1DhmsDay { ref with dayOfMonth := 99 } = true ∧
      Instr.validAlarm .a1DhmsDate { ref with dayOfMonth := 99 } = false := by decide
theorem test_asm_alarm_line_names_an_alarm :
    AsmLine.wellFormed (.alarm (.tenc false) (.ofTimestamp ref)) = false := by decide
theorem test_asm_alarm_line_presents_its_fields :
    AsmLine.wellFormed (.alarm .a2DhmDay { minutes := some 1, hour := some (.h24 0) }) = false ∧
      AsmLine.wellFormed (.alarm (.a2Hm false) { minutes := some 1, hour := some (.h24 0) }) = true := by
  decide
theorem test_tenc_needs_its_century :
    (TsOperands.presentsFor { TsOperands.ofTimestamp ref with isCentury := none } (.tenc false)) =
      false := by decide
theorem test_contract_and_ports :
    ¬ InContract (.tenc false) { ref with year := 100 } ∧ FitsPorts { ref with year := 127 } ∧
      ¬ FitsPorts { ref with year := 128 } := by decide

/-! ### Words written out from 30_encoding R48 -/

theorem test_decode_tenc : decodeTableWord 8 0b10000 = some (.tenc true) := by decide
theorem test_decode_tdec : decodeTableWord 8 0b00001 = some (.tdec false) := by decide
theorem test_decode_a1S : decodeTableWord 8 0b00010 = some (.a1S false) := by decide
theorem test_decode_a1Ms : decodeTableWord 8 0b10011 = some (.a1Ms true) := by decide
theorem test_decode_a1Hms : decodeTableWord 8 0b00100 = some (.a1Hms false) := by decide
theorem test_decode_a1DhmsDay : decodeTableWord 8 0b10101 = some .a1DhmsDay := by decide
theorem test_decode_a1DhmsDate : decodeTableWord 8 0b00101 = some .a1DhmsDate := by decide
theorem test_decode_a2M : decodeTableWord 8 0b10110 = some (.a2M true) := by decide
theorem test_decode_a2Hm : decodeTableWord 8 0b00111 = some (.a2Hm false) := by decide
theorem test_decode_a2DhmDay : decodeTableWord 8 0b11000 = some .a2DhmDay := by decide
theorem test_decode_a2DhmDate : decodeTableWord 8 0b01000 = some .a2DhmDate := by decide
theorem test_decode_rejects :
    decodeWord 0x0C = .error (.reservedCommand 0x0C) ∧ decodeWord 0x20 = .error (.notACommandWord 0x20) := by
  decide

/-! ### Vectors: the Time Codec -/

theorem test_tenc_V_T10 :
    seen (exec (.tenc false) (st ⟨0, 0, .h12 25 false, 1, 1, 79, 0, true⟩)) =
      some (some (.bytes [0x00, 0x00, 0x65, 0x01, 0x01, 0xF9, 0x00]), []) := by decide
theorem test_tenc_V_T14 :
    faultOf (exec (.tenc false) (st ⟨127, 127, .h24 127, 127, 127, 127, 127, true⟩)) =
      some (.fieldRange 0x00
        [.seconds, .minutes, .hours, .dayOfWeek, .dayOfMonth, .month, .year]) := by decide
theorem test_tdec_V_D8_narrow :
    seen (exec (.tdec false) (st (rb := ⟨0x7A, 0x80, 0x80, 0xFF, 0xFF, 0xFF, 0xFF⟩))) =
      some (some (.decoded ⟨80, 0, .h24 0, 7, 45, 25, 165, true⟩), []) := by decide
theorem test_tdec_V_D9_wide :
    seen (exec (.tdec false) (st (p := .wide) (rb := ⟨0x00, 0x00, 0x7F, 0xF8, 0xC0, 0x60, 0xA5⟩))) =
      some (some (.decoded ⟨0, 0, .h12 25 true, 0, 120, 60, 105, false⟩), []) := by decide

/-! ### Vectors: the Alarm Codec -/

theorem test_a1S_V_A18 :
    seen (exec (.a1S false) (st { ref with seconds := 0, hour := .h24 127 })) =
      some (some (.bytes [0x07, 0x00, 0x80, 0x80, 0x80]), []) := by decide
theorem test_a1S_V_A22 :
    faultOf (exec (.a1S false) (st { ref with seconds := 100 })) =
      some (.fieldRange 0x02 [.seconds]) := by decide
theorem test_a1Ms_law_table :
    seen (exec (.a1Ms false) (st)) =
      some (some (.bytes [0x07, 0x12, 0x34, 0x80, 0x80]), []) := by decide
theorem test_a1Hms_V_A15 :
    seen (exec (.a1Hms false) (st { ref with seconds := 0, minutes := 0, hour := .h12 6 true })) =
      some (some (.bytes [0x07, 0x00, 0x00, 0x66, 0x80]), []) := by decide
theorem test_a1Hms_V_A23 :
    faultOf (exec (.a1Hms false) (st { ref with minutes := 100 })) =
      some (.fieldRange 0x04 [.minutes]) := by decide
theorem test_a1DhmsDay_V_A4 :
    seen (exec .a1DhmsDay (st ⟨0, 0, .h24 13, 3, 127, 127, 127, true⟩)) =
      some (some (.bytes [0x07, 0x00, 0x00, 0x13, 0x43]), []) := by decide
theorem test_a1DhmsDay_V_A20 :
    seen (exec .a1DhmsDay (st ⟨0, 0, .h24 0, 99, 127, 1, 1, false⟩)) =
      some (some (.bytes [0x07, 0x00, 0x00, 0x00, 0x43]), []) := by decide
theorem test_a1DhmsDate_V_A5 :
    seen (exec .a1DhmsDate (st ⟨0, 30, .h24 8, 127, 21, 1, 1, false⟩)) =
      some (some (.bytes [0x07, 0x00, 0x30, 0x08, 0x21]), []) := by decide
theorem test_a1DhmsDate_V_A24 :
    faultOf (exec .a1DhmsDate (st ⟨100, 100, .h24 100, 1, 100, 1, 1, false⟩)) =
      some (.fieldRange 0x05 [.seconds, .minutes, .hours, .dayOfMonth]) := by decide
theorem test_a2M_V_A19 :
    seen (exec (.a2M false) (st { ref with seconds := 127, minutes := 0, hour := .h24 127 })) =
      some (some (.bytes [0x0B, 0x00, 0x80, 0x80]), []) := by decide
theorem test_a2Hm_V_A7 :
    seen (exec (.a2Hm true) (st { ref with minutes := 59, hour := .h24 23 })) =
      some (some (.bytes [0x0B, 0x59, 0x23, 0x80]), []) := by decide
theorem test_a2DhmDay_V_A8 :
    seen (exec .a2DhmDay (st ⟨0, 0, .h12 12 false, 7, 0, 0, 0, false⟩)) =
      some (some (.bytes [0x0B, 0x00, 0x52, 0x47]), []) := by decide
theorem test_a2DhmDay_V_A12 :
    seen (exec .a2DhmDay (st ⟨0, 0, .h24 0, 0, 0, 0, 0, false⟩)) =
      some (some (.bytes [0x0B, 0x00, 0x00, 0x40]), []) := by decide
theorem test_a2DhmDate_V_A9 :
    seen (exec .a2DhmDate (st ⟨0, 1, .h24 0, 0, 31, 0, 0, false⟩)) =
      some (some (.bytes [0x0B, 0x01, 0x00, 0x31]), []) := by decide
theorem test_a2DhmDate_V_A14 :
    seen (exec .a2DhmDate (st ⟨0, 0, .h24 0, 0, 85, 0, 0, false⟩)) =
      some (some (.bytes [0x0B, 0x00, 0x00, 0x85]), []) := by decide

/-! ### Steps of programs -/

theorem test_step_V_C8_reserved_before_contract :
    seen (step (st { ref with seconds := 100 } (cmd := 0x09))) =
      some (some (.failed (.reservedCommand 0x09)), [.reservedCommand 0x09]) := by decide
theorem test_step_P4_5_records_the_fault :
    seen (step (st (program := [.evaluate 0x00
        (.ofTimestamp ⟨100, 0, .h24 0, 1, 1, 1, 0, false⟩) .asRead]))) =
      some (some (.failed (.fieldRange 0x00 [.seconds])), [.fieldRange 0x00 [.seconds]]) := by decide
theorem test_step_P5_4_reads_only_what_it_is_given :
    seen (step (st (program := [.evaluate 0x07
        { minutes := some 5, hour := some (.h24 7) } .asRead]))) =
      some (some (.bytes [0x0B, 0x05, 0x07, 0x80]), []) := by decide
theorem test_write_P2_4 :
    regAfter (runHostStep (.write .outByte0 1) (st (out := some (.bytes [0x0B, 0x34, 0x65, 0x42]))
      (reg := [(0x0A, 0x80), (0x0C, 0x01)]))) =
      some [(0x0A, 0x80), (0x0B, 0x34), (0x0C, 0x65), (0x0D, 0x42)] := by decide
theorem test_read7_unset :
    faultOf (runHostStep .read7 (st (reg := [(0, 1), (1, 2), (3, 4)]))) =
      some (.unsetRegister 2) := by decide
theorem test_write_at_the_last_address :
    regAfter (runHostStep (.write (.literal 0x12) 6) (st (out := some (.bytes [1, 2, 3, 4, 5, 6, 7])))) =
      some [(0x12, 7)] ∧
    faultOf (runHostStep (.write (.literal 0x12) 5) (st (out := some (.bytes [1, 2, 3, 4, 5, 6, 7])))) =
      some (.outsideImage 0x13) := by decide
theorem test_write_after_decode_has_no_lane :
    faultOf (runHostStep (.write (.literal 0x00) 0) (st (out := some (.decoded ref)))) =
      some (.undefinedLane 0) := by decide
theorem test_region_map :
    regionOf 0x06 = some .timeBlock ∧ regionOf 0x07 = some .alarm1Block ∧
      regionOf 0x0B = some .alarm2Block ∧ regionOf 0x0E = some .control ∧
      regionOf 0x0F = some .status ∧ regionOf 0x10 = some .agingOffset ∧
      regionOf 0x12 = some .temperature ∧ regionOf 0x13 = none ∧
      channelFlagBit .alarm1 = 0 ∧ channelFlagBit .alarm2 = 1 := by decide
theorem test_hour_of_source_discards_isPM :
    Hour.ofSource false 13 true = .h24 13 ∧ Hour.ofSource true 1 true = .h12 1 true := by decide

/-! ### Witnesses: every statement's hypotheses can be met -/

theorem ref_valid : ref.valid = true := by decide

theorem witness_StepEvaluatesTheDecodedOperation :
    (∃ t, (st (cmd := 0x02)).program = [] ∧ decodeCmd (st (cmd := 0x02)).cmd = .ok (.a1S false) ∧
      exec (.a1S false) (st (cmd := 0x02)) = .next t) ∧
    exec (.a1S false) (st { ref with seconds := 100 } (cmd := 0x02)) =
      .fault (.fieldRange 0x02 [.seconds]) := ⟨⟨_, rfl, rfl, rfl⟩, rfl⟩

theorem witness_ProgramEvaluationPresentsItsInputs :
    let s := st (program := [.evaluate 0x01 {} (.literal zeros)])
    s.program = .evaluate 0x01 {} (.literal zeros) :: [] ∧ decodeCmd 0x01 = .ok (.tdec false) ∧
      ∃ u, exec (.tdec false) (s.drive 0x01 {} (.literal zeros)) = .next u := ⟨rfl, rfl, _, rfl⟩

theorem witness_ProgramEvaluationPresentsItsInputs_fault :
    let ts := TsOperands.ofTimestamp { ref with seconds := 100 }
    let s := st (program := [.evaluate 0x02 ts .asRead])
    s.program = .evaluate 0x02 ts .asRead :: [] ∧ decodeCmd 0x02 = .ok (.a1S false) ∧
      exec (.a1S false) (s.drive 0x02 ts .asRead) = .fault (.fieldRange 0x02 [.seconds]) :=
  ⟨rfl, rfl, rfl⟩

theorem witness_ReservedCommandIsRefusedAndRecorded :
    (st (cmd := 0x09)).program = [] ∧ 9 ≤ (st (cmd := 0x09)).cmd.toNat % 16 ∧
      9 ≤ (st (cmd := 0x1F)).cmd.toNat % 16 ∧
      (st (program := [.evaluate 0x0C {} .asRead, .read7])).program =
        .evaluate 0x0C {} .asRead :: [.read7] ∧ 9 ≤ (0x0C#5).toNat % 16 := by decide

/-- 95_test_vectors P5, step 3: the refusal is recorded and step 4 is still to do. -/
theorem test_p5_reserved_word_in_a_program :
    let s := st (program := [.evaluate 0x0C {} .asRead, .read7])
    seen (step s) = some (some (.failed (.reservedCommand 0x0C)), [.reservedCommand 0x0C]) ∧
      programAfter (step s) = some [.read7] := ⟨rfl, rfl⟩

theorem witness_FetchWordIsEvaluatedNext :
    decodeTableWord 8 0x18 = some .a2DhmDay ∧
      (∃ u, exec .a2DhmDay ((st).withFetchWord 8 0x18) = .next u) ∧
      exec .a2DhmDay ((st { ref with minutes := 100 }).withFetchWord 8 0x18) =
        .fault (.fieldRange 0x18 [.minutes]) := ⟨rfl, ⟨_, rfl⟩, rfl⟩

theorem witness_EvaluationCompletesExactlyInContract :
    InContract (.tenc false) ref ∧ InContract (.a1S false) { ref with seconds := 99 } ∧
      ¬ InContract (.a1S false) { ref with seconds := 100 } := by decide

theorem witness_OutcomeDependsOnlyOnInputsRead :
    let s := st
    let t := st { ref with hour := .h24 99, month := 200 } .wide ⟨1, 2, 3, 4, 5, 6, 7⟩ 0x1F
    (∀ f ∈ (Instr.a1Ms true).reads, fieldValue s.ts f = fieldValue t.ts f) ∧
      (Field.hours ∈ (Instr.a1Ms true).reads → s.ts.hour = t.ts.hour) ∧
      ((∃ d, Instr.a1Ms true = .tenc d) → s.ts.isCentury = t.ts.isCentury) ∧
      ((∃ d, Instr.a1Ms true = .tdec d) → s.rb = t.rb ∧ s.profile = t.profile) :=
  ⟨by decide, by decide, fun _ => rfl, fun ⟨_, h⟩ => by cases h⟩

theorem witness_IgnoredSelectorChangesNoResult :
    Instr.a2Hm ∈ [Instr.tenc, .tdec, .a1S, .a1Ms, .a1Hms, .a2M, .a2Hm] := by simp

theorem witness_ResultShapeByOperation :
    (∃ t, exec (.tenc false) (st) = .next t) ∧ (∃ t, exec (.tdec false) (st) = .next t) ∧
      (∃ t, exec .a1DhmsDay (st) = .next t) ∧ (∃ t, exec (.a2M false) (st) = .next t) ∧
      Instr.channel .a1DhmsDay = some .alarm1 ∧ Instr.channel (.a2M false) = some .alarm2 :=
  ⟨⟨_, rfl⟩, ⟨_, rfl⟩, ⟨_, rfl⟩, ⟨_, rfl⟩, rfl, rfl⟩

theorem witness_BcdPacksTwoDecimalDigits : 99 < 100 := by decide

theorem witness_TencPacksTheTimeBlock :
    (st ⟨99, 99, .h24 99, 99, 99, 99, 99, true⟩).ts.seconds < 100 ∧
      InContract (.tenc true) ⟨99, 99, .h24 99, 99, 99, 99, 99, true⟩ ∧
      100 ≤ (st { ref with year := 100 }).ts.year ∧
      (st ⟨45, 30, .h12 11 true, 3, 21, 6, 24, false⟩).ts = ⟨45, 30, .h12 11 true, 3, 21, 6, 24, false⟩ := by
  decide

theorem witness_TdecStaysInItsRanges :
    (st (rb := ⟨0xFF, 0xFF, 0xFF, 0xFF, 0xFF, 0xFF, 0xFF⟩)).rb =
        ⟨0xFF, 0xFF, 0xFF, 0xFF, 0xFF, 0xFF, 0xFF⟩ ∧
      (st (rb := ⟨0, 0, 0x3F, 0, 0, 0, 0⟩)).rb.b2 = 0x3F#8 := by decide

theorem witness_TdecIgnoresUnreadBits :
    let a : RegBytes := ⟨0x80, 0x80, 0x80, 0xF8, 0xC0, 0x60, 0x99⟩
    let b : RegBytes := ⟨0, 0, 0, 0, 0, 0, 0x99⟩
    (st (rb := a)).profile = (st (rb := b)).profile ∧
      (∀ k < 7, a.b0.getLsbD k = b.b0.getLsbD k) ∧ (∀ k < 7, a.b1.getLsbD k = b.b1.getLsbD k) ∧
      (∀ k < 7, a.b2.getLsbD k = b.b2.getLsbD k) ∧ (∀ k < 3, a.b3.getLsbD k = b.b3.getLsbD k) ∧
      (∀ k < 6, a.b4.getLsbD k = b.b4.getLsbD k) ∧ (∀ k < 5, a.b5.getLsbD k = b.b5.getLsbD k) ∧
      a.b5.getLsbD 7 = b.b5.getLsbD 7 ∧ a.b6 = b.b6 ∧ (st).profile ≠ .wide := by decide

theorem witness_TdecIgnoresUnreadBits_wide :
    let a : RegBytes := ⟨1, 2, 0x85, 0xF8, 5, 0x91, 0x99⟩
    let b : RegBytes := ⟨1, 2, 0x05, 0x00, 5, 0x91, 0x99⟩
    (∀ k < 7, a.b2.getLsbD k = b.b2.getLsbD k) ∧ (∀ k < 3, a.b3.getLsbD k = b.b3.getLsbD k) ∧
      a.b0 = b.b0 ∧ a.b1 = b.b1 ∧ a.b4 = b.b4 ∧ a.b5 = b.b5 ∧ a.b6 = b.b6 := by decide

theorem witness_BcdBytesHaveTensHighAndOnesLow :
    InContract (.tenc false) { ref with seconds := 59, minutes := 59, dayOfMonth := 31 } := by decide

theorem witness_MonthByteCarriesTheCenturyFlag :
    InContract (.tenc false) { ref with month := 79 } ∧ ({ ref with month := 79 } : Timestamp).month < 80 ∧
      1 ≤ ({ ref with month := 12 } : Timestamp).month ∧
      (st (rb := { zeros with b5 := 0x92 })).rb =
        { (st (rb := { zeros with b5 := 0x12 })).rb with
          b5 := (st (rb := { zeros with b5 := 0x12 })).rb.b5 ^^^ 0x80#8 } := by decide

theorem witness_HoursByteCarriesModeAndMeridiem :
    (InContract (.tenc false) ref ∧ ref.hour.valid = true) ∧
      InContract (.tenc false) { ref with hour := .h24 23 } ∧ (Hour.h24 23).valid = true := by decide

theorem witness_HoursByteCarriesModeAndMeridiem_decode :
    (st (rb := { zeros with b2 := 0x71 })).rb.b2.getLsbD 6 = true ∧
      (st (rb := { zeros with b2 := 0x23 })).rb.b2.getLsbD 6 = false := by decide

theorem witness_ValidTimestampsRoundTrip :
    Timestamp.valid ⟨59, 59, .h24 23, 7, 31, 12, 99, true⟩ = true := by decide

theorem witness_RoundTripDomainIsExact : ref.valid = true ∧ 99 < 100 := ⟨ref_valid, by decide⟩

theorem witness_ProfilesAgreeOnEncodedBlocks :
    let rb : RegBytes := ⟨0x59, 0x59, 0xFF, 0xFF, 0x39, 0x99, 0xFF⟩
    (st (rb := rb)).rb = (st (p := .wide) (rb := rb)).rb ∧
      rb.b0.getLsbD 7 = false ∧ rb.b1.getLsbD 7 = false ∧ rb.b4.getLsbD 7 = false ∧
      rb.b4.getLsbD 6 = false ∧ rb.b5.getLsbD 6 = false ∧ rb.b5.getLsbD 5 = false ∧
      (st).ts = ref := by decide

theorem witness_EncodeAfterDecodeIsNotIdentity :
    Gives (.tdec false) (st (rb := ⟨0, 0, 0x80, 0, 0, 0, 0⟩))
        (.decoded ⟨0, 0, .h24 0, 0, 0, 0, 0, false⟩) ∧
      (st ⟨0, 0, .h24 0, 0, 0, 0, 0, false⟩).ts = ⟨0, 0, .h24 0, 0, 0, 0, 0, false⟩ ∧
    Gives (.tdec false) (st (rb := ⟨0, 0, 0, 0, 0, 0, 0x9A⟩))
        (.decoded ⟨0, 0, .h24 0, 0, 0, 0, 100, false⟩) ∧
      (st ⟨0, 0, .h24 0, 0, 0, 0, 100, false⟩).ts = ⟨0, 0, .h24 0, 0, 0, 0, 100, false⟩ :=
  ⟨rfl, rfl, rfl, rfl⟩

theorem witness_TencTensDigitsSpillOntoFlags :
    InContract (.tenc false) ⟨80, 80, .h12 20 false, 8, 40, 80, 0, false⟩ ∧
      InContract (.tenc false) ⟨79, 79, .h24 40, 7, 80, 79, 0, true⟩ := by decide

/-- One state meets the hypotheses of the nine alarm operations' statements, at the contract's
bound. -/
theorem witness_alarm_operations :
    let s := st ⟨99, 99, .h12 99 true, 99, 99, 200, 200, true⟩
    s.ts.seconds < 100 ∧ s.ts.minutes < 100 ∧ s.ts.hour.value < 100 ∧ s.ts.dayOfWeek < 100 ∧
      s.ts.dayOfMonth < 100 := by decide

theorem witness_AlarmReadsOnlyTimestampAndSelector :
    Instr.isAlarm (.a2Hm true) = true ∧ (st).ts = (st (p := .wide) (rb := ⟨1, 2, 3, 4, 5, 6, 7⟩)).ts ∧
      Instr.a1S ∈ [Instr.a1S, .a1Ms, .a1Hms, .a2M, .a2Hm] ∧
      Instr.channel (.a2Hm true) = some .alarm2 ∧ (∃ t, exec (.a2Hm true) (st) = .next t) ∧
      Instr.channel .a1DhmsDate = some .alarm1 ∧ ∃ t, exec .a1DhmsDate (st) = .next t :=
  ⟨rfl, rfl, by simp, rfl, ⟨_, rfl⟩, rfl, _, rfl⟩

theorem witness_DontCareBitsMarkExcludedFields :
    Instr.channel (.a1Ms false) = some .alarm1 ∧ Instr.validAlarm (.a1Ms false) (st).ts = true ∧
      blockIndex .alarm1 .minutes = some 2 ∧ Position.minutes ∈ (Instr.a1Ms false).included ∧
      blockIndex .alarm1 .hours = some 3 ∧ Position.hours ∉ (Instr.a1Ms false).included := by decide

theorem witness_IncludedFieldsDecodeBack :
    Instr.channel .a2DhmDay = some .alarm2 ∧ Instr.validAlarm .a2DhmDay (st).ts = true ∧
      blockIndex .alarm2 .dayDate = some 3 ∧ Position.dayDate ∈ Instr.a2DhmDay.included ∧
      Instr.channel .a1DhmsDate = some .alarm1 ∧ Instr.validAlarm .a1DhmsDate (st).ts = true ∧
      blockIndex .alarm1 .seconds = some 1 ∧ Position.seconds ∈ Instr.a1DhmsDate.included := by decide

theorem witness_NestedPoliciesAgreeOnSharedFields :
    Instr.channel (.a1Ms true) = some .alarm1 ∧ Instr.channel .a1DhmsDay = some .alarm1 ∧
      (Instr.a1Ms true).included ⊆ Instr.a1DhmsDay.included ∧
      (Instr.a1Ms true).dysel = Instr.a1DhmsDay.dysel ∧ (st).ts = (st (p := .wide)).ts ∧
      InContract .a1DhmsDay (st).ts ∧ blockIndex .alarm1 .minutes = some 2 ∧
      Position.minutes ∈ (Instr.a1Ms true).included := by decide

theorem witness_SelectorBitIsTheSelector :
    Instr.channel .a1DhmsDay = some .alarm1 ∧ blockIndex .alarm1 .dayDate = some 4 ∧
      Instr.validAlarm .a1DhmsDay (st).ts = true ∧ Position.dayDate ∈ Instr.a1DhmsDay.included := by decide

theorem witness_AlarmHoursByteIsTheTimeCodecs :
    Instr.channel (.a2Hm false) = some .alarm2 ∧ Position.hours ∈ (Instr.a2Hm false).included ∧
      blockIndex .alarm2 .hours = some 2 ∧ InContract (.a2Hm false) (st).ts ∧
      InContract (.tenc true) (st).ts := by decide

theorem witness_AlarmTensDigitsSpillOntoFlags :
    let ts : Timestamp := ⟨80, 79, .h24 80, 99, 40, 0, 0, false⟩
    Instr.channel .a1DhmsDate = some .alarm1 ∧ InContract .a1DhmsDate (st ts).ts ∧
      blockIndex .alarm1 .dayDate = some 4 ∧ Position.dayDate ∈ Instr.a1DhmsDate.included ∧
      blockIndex .alarm1 .hours = some 3 ∧ Position.hours ∈ Instr.a1DhmsDate.included ∧
      InContract .a1DhmsDay (st ts).ts ∧ InContract .a1DhmsDay { ts with hour := .h24 40 } ∧
      InContract .a1DhmsDay { ts with hour := .h12 20 false } := by decide

theorem witness_WriteStoresTheOutputBytes :
    let s := st (out := some (.bytes [0x0B, 1, 2, 3])) (program := [.write .outByte0 1, .read7])
    s.program = .write .outByte0 1 :: [.read7] ∧ s.out = some (.bytes [0x0B, 1, 2, 3]) ∧ 1 < [0x0B#8, 1, 2, 3].length ∧
      [0x0B#8, 1, 2, 3][0]? = some 0x0B#8 ∧ (0x0B#8).toNat + (4 - 1) ≤ 0x13 ∧
      (0x10#8).toNat + (4 - 1) ≤ 0x13 := by decide

theorem witness_WriteFaultsOutsideOutputAndImage :
    let s (start : WriteStart) (first : Nat) :=
      st (out := some (.bytes [0x45, 2, 3])) (program := [.write start first])
    ((s (.literal 0) 3).program = .write (.literal 0) 3 :: [] ∧
      (definedBytes (s (.literal 0) 3).out).length ≤ 3) ∧
    ((st (program := [.write .outByte0 0])).program = .write .outByte0 0 :: [] ∧
      definedBytes (st (program := [.write .outByte0 0])).out = []) ∧
    (definedBytes (s .outByte0 3).out ≠ [] ∧ (definedBytes (s .outByte0 3).out).length ≤ 3) ∧
    ((s (.literal 0x11) 0).out = some (.bytes [0x45, 2, 3]) ∧ 0 < [0x45#8, 2, 3].length ∧
      0x13 < (0x11#8).toNat + (3 - 0)) ∧
    [0x45#8, 2, 3][0]? = some 0x45#8 ∧ 0x13 < (0x45#8).toNat + (3 - 1) := by decide

/-- Byte 0 of a TENC result is no alarm address: `WRITE out[0], out[1..]` after seconds 45 leads
beyond the image (30_encoding R71; log entry 9). -/
theorem test_write_after_tenc_leads_beyond_the_image :
    faultOf (step (st (out := some (.bytes [0x45, 2, 3])) (program := [.write .outByte0 1]))) =
      some (.outsideImage 0x45) := by decide

theorem witness_Read7TakesTheTimeBlock :
    let m : Memory := [(0, 1), (1, 2), (2, 3), (3, 4), (4, 5), (5, 6), (6, 7)]
    (st (reg := m) (program := [.read7])).program = .read7 :: [] ∧
    (∀ k < 7, Memory.read (st (reg := m)).reg k = (⟨1, 2, 3, 4, 5, 6, 7⟩ : RegBytes).toList[k]?) ∧
      Memory.read (st (reg := m.take 6)).reg 6 = none ∧
      ∀ j < 6, Memory.read (st (reg := m.take 6)).reg j ≠ none := by decide

theorem witness_WrittenTimeBlockReadsBack :
    let s := st (out := some (.bytes zeros.toList)) (program := [.write (.literal 0x00) 0, .read7])
    s.program = .write (.literal 0x00) 0 :: .read7 :: [] ∧ s.out = some (.bytes zeros.toList) :=
  ⟨rfl, rfl⟩

theorem witness_AlarmBlockLandsOnItsRegisters :
    (st (program := [.write .outByte0 1])).program = .write .outByte0 1 :: [] ∧
      Instr.channel .a1DhmsDay = some .alarm1 ∧ InContract .a1DhmsDay (st).ts ∧
      Instr.channel (.a2M true) = some .alarm2 ∧ InContract (.a2M true) (st).ts := by decide

theorem witness_AssembledLinesRunTheirOperation :
    InContract (.tenc false) ref ∧
      (st (program := [assemble (.tenc 12 34 (.h12 5 true) 2 17 6 24 false)])).program =
        assemble (.tenc ref.seconds ref.minutes ref.hour ref.dayOfWeek ref.dayOfMonth ref.month ref.year
          ref.isCentury) :: [] ∧
      ¬ InContract (.tenc false) { ref with year := 100 } ∧
      (st (program := [assemble (.tdec .asRead)])).program = assemble (.tdec .asRead) :: [] ∧
      (st (program := [assemble (.alarm .a2DhmDay {})])).program =
        assemble (.alarm .a2DhmDay {}) :: [] := by decide

theorem witness_AssembledLinesRunTheirOperation_alarm :
    let good := (st).drive 0x18 (.ofTimestamp ref) .asRead
    let bad := (st).drive 0x18 (.ofTimestamp { ref with minutes := 100 }) .asRead
    decodeCmd 0x18 = .ok .a2DhmDay ∧ (∃ u, exec .a2DhmDay good = .next u) ∧
      exec .a2DhmDay bad = .fault (.fieldRange 0x18 [.minutes]) := ⟨rfl, ⟨_, rfl⟩, rfl⟩

theorem witness_StepKeepsProfileAndRecord :
    (∃ t, step (st) = .next t) ∧ ∃ t, step (st (cmd := 0x09)) = .next t := ⟨⟨_, rfl⟩, ⟨_, rfl⟩⟩

theorem witness_OnlyWriteChangesRegisters :
    let s := st (reg := [(3, 9)]) (program := [.evaluate 0x02 (.ofTimestamp ref) .asRead])
    (∃ t, step s = .next t) ∧ ∀ start first rest, s.program ≠ .write start first :: rest :=
  ⟨⟨_, rfl⟩, fun _ _ _ h => by cases h⟩

theorem witness_EvaluationNeverStops :
    (st).program = [] ∧ ∃ cmd ts rb rest,
      (st (program := [.evaluate 0x1C {} .asRead])).program = .evaluate cmd ts rb :: rest :=
  ⟨rfl, _, _, _, _, rfl⟩

theorem witness_RecordedFailuresSurviveEveryRun :
    let s := st (program := [.evaluate 0x02 (.ofTimestamp ref) .asRead, .evaluate 0x0C {} .asRead])
    (∃ t, RunsTo (1 + 1) s t) ∧ ∃ t, RunsTo (1 + 0) s t ∧ t.recorded = s.recorded :=
  ⟨⟨_, rfl⟩, _, rfl, rfl⟩

/-- The invariant holds in a state with registers, a failed result and a failure on record. -/
theorem witness_StepKeepsInvariant :
    let s : State := { st (cmd := 0x09) (out := some (.failed (.reservedCommand 0x09)))
      (reg := [(0x07, 0x12), (0x12, 0x00)]) with recorded := [.reservedCommand 0x09] }
    s.Inv ∧ ∃ t, step s = .next t := by
  refine ⟨⟨by decide, by simp [ResultLegal, st], ?_⟩, ⟨_, rfl⟩⟩
  intro f hf
  obtain rfl := List.mem_singleton.1 hf
  show 9 ≤ _ % 16
  decide

/-- A `FieldRange` failure on record meets the invariant too. -/
theorem witness_legal_fieldRange : Failure.Legal (.fieldRange 0x15 [.minutes, .dayOfWeek]) :=
  ⟨.a1DhmsDay, rfl, by decide, by decide⟩

theorem witness_FirstEvaluationIsDefined : 0x18 < 32 ∧ 0x18 % 16 ≤ 8 ∧ 0x1F < 32 ∧ 9 ≤ 0x1F % 16 := by
  decide

end Sys2Proof.Tests
end

section
/-!
PROOFS. TDEC (40_time_codec R77, R80): the one thing its execution can do, and the totality of it.
-/

namespace Sys2Proof.Machine

/-- The decode path has no check in front of it: no contract is assumed on the state. -/
theorem gives_tdec (s : State) (dysel : Bool) :
    Gives (.tdec dysel) s (.decoded (decodeTime s.profile s.rb)) := rfl

/-- Settles O13: the decoded timestamp is the one R80 reads from the bytes at `rb` under the state's
profile. -/
theorem tdecGivesADecodedResultForEveryInput :
    Obligations.TdecGivesADecodedResultForEveryInput := by
  intro s dysel
  exact ⟨decodeTime s.profile s.rb, gives_tdec s dysel⟩

end Sys2Proof.Machine
end

section
/-!
PROOFS. The Alarm Codec (41_alarm_codec R85): the nine operations as one encoder over the model's
tables, when it gives a result and when it faults, and what it reads.
-/

namespace Sys2Proof.Machine

/-! ### The encoders' ending, inverted -/

theorem encodeResult_eq_next_iff {cmd : Cmd} {checked : List Field} {out : List Byte}
    {s t : State} :
    encodeResult cmd checked out s = .next t ↔
      (∀ f ∈ checked, fieldValue s.ts f < 100) ∧ t = s.withOut (.bytes out) := by
  by_cases h : ∀ f ∈ checked, fieldValue s.ts f < 100
  · rw [encodeResult_ok h]
    exact ⟨fun e => ⟨h, (Host.Outcome.next.inj e).symm⟩, fun e => e.2 ▸ rfl⟩
  · rw [encodeResult_fault h]
    exact ⟨nofun, fun e => absurd e.1 h⟩

theorem encodeResult_eq_fault_iff {cmd : Cmd} {checked : List Field} {out : List Byte} {s : State}
    {f : Fault} :
    encodeResult cmd checked out s = .fault f ↔
      (¬ ∀ x ∈ checked, fieldValue s.ts x < 100) ∧
        f = .fieldRange cmd (offending checked s.ts) := by
  by_cases h : ∀ x ∈ checked, fieldValue s.ts x < 100
  · rw [encodeResult_ok h]
    exact ⟨nofun, fun e => absurd h e.1⟩
  · rw [encodeResult_fault h]
    exact ⟨fun e => ⟨h, (Host.Outcome.fault.inj e).symm⟩, fun e => e.2 ▸ rfl⟩

theorem State.withOut_inj {s : State} {r r' : Result} : s.withOut r = s.withOut r' ↔ r = r' :=
  ⟨fun h => by simpa using congrArg State.out h, fun h => h ▸ rfl⟩

/-! ### The nine operations as one encoder -/

/-- Every alarm operation is the shared encoder over the model's own tables: its channel, its set F,
its selector and the fields it reads (41_alarm_codec R86 to R88). -/
theorem exec_alarm_eq {i : Instr} {ch : Channel} (h : i.channel = some ch) (s : State) :
    exec i s = encodeResult (encode i) i.reads (alarmBytes ch i.included s.ts i.dysel) s := by
  cases i <;> cases h <;> rfl

theorem exec_alarm_eq_next_iff {i : Instr} {ch : Channel} (h : i.channel = some ch) {s t : State} :
    exec i s = .next t ↔
      InContract i s.ts ∧ t = s.withOut (.bytes (alarmBytes ch i.included s.ts i.dysel)) := by
  rw [exec_alarm_eq h, encodeResult_eq_next_iff]

theorem exec_alarm_eq_fault_iff {i : Instr} {ch : Channel} (h : i.channel = some ch) {s : State}
    {f : Fault} :
    exec i s = .fault f ↔
      ¬ InContract i s.ts ∧ f = .fieldRange (encode i) (offending i.reads s.ts) := by
  rw [exec_alarm_eq h, encodeResult_eq_fault_iff]

theorem gives_alarm_iff {i : Instr} {ch : Channel} (h : i.channel = some ch) {s : State}
    {r : Result} :
    Gives i s r ↔ InContract i s.ts ∧ r = .bytes (alarmBytes ch i.included s.ts i.dysel) :=
  (exec_alarm_eq_next_iff h).trans (and_congr_right fun _ => State.withOut_inj)

/-! ### The bytes: their number, and the selector without a day/date field -/

@[simp] theorem alarmBytes_length (ch : Channel) (included : List Position) (ts : Timestamp)
    (dysel : Bool) :
    (alarmBytes ch included ts dysel).length = (channelPositions ch).length + 1 := by
  simp [alarmBytes]

theorem packPosition_eq_of_ne_dayDate {x : Position} (h : x ≠ .dayDate) (ts : Timestamp)
    (d d' : Bool) : packPosition ts d x = packPosition ts d' x := by
  cases x with
  | dayDate => exact absurd rfl h
  | seconds | minutes | hours => rfl

/-- The selector is looked at by the day/date byte only, so without that field it has no effect. -/
theorem alarmBytes_eq_of_dayDate_not_mem {included : List Position} (h : .dayDate ∉ included)
    (ch : Channel) (ts : Timestamp) (d d' : Bool) :
    alarmBytes ch included ts d = alarmBytes ch included ts d' := by
  have same_byte (x : Position) :
      (if x ∈ included then packPosition ts d x else dontCare) =
        if x ∈ included then packPosition ts d' x else dontCare := by
    split
    · next hx => exact packPosition_eq_of_ne_dayDate (fun e => h (e ▸ hx)) ts d d'
    · rfl
  simp only [alarmBytes, same_byte]

/-! ### What an alarm operation reads -/

/-- The outcome of an alarm operation is a function of `ts`, the result and the fault both. -/
theorem alarm_outcome_of_ts_eq {i : Instr} {ch : Channel} (h : i.channel = some ch) {s t : State}
    (hts : s.ts = t.ts) :
    (∀ r, Gives i s r ↔ Gives i t r) ∧ ∀ f, exec i s = .fault f ↔ exec i t = .fault f :=
  ⟨fun _ => by rw [gives_alarm_iff h, gives_alarm_iff h, hts],
    fun _ => by rw [exec_alarm_eq_fault_iff h, exec_alarm_eq_fault_iff h, hts]⟩

/-- Two alarm operations that differ in the selector alone, and in no day/date field, give the same
result. -/
theorem gives_alarm_iff_of_dayDate_not_mem {i j : Instr} {ch : Channel} (hi : i.channel = some ch)
    (hj : j.channel = some ch) (hreads : i.reads = j.reads) (hincl : i.included = j.included)
    (hno : .dayDate ∉ i.included) {s : State} {r : Result} : Gives i s r ↔ Gives j s r := by
  rw [gives_alarm_iff hi, gives_alarm_iff hj, InContract, InContract, hreads, ← hincl,
    alarmBytes_eq_of_dayDate_not_mem hno ch s.ts i.dysel j.dysel]

/-- The two words of an operation without a day/date field stand in the same row of R87's table. -/
theorem both_words_of_no_dayDate {op : Bool → Instr}
    (hop : op ∈ [Instr.a1S, .a1Ms, .a1Hms, .a2M, .a2Hm]) :
    ∃ ch, (op true).channel = some ch ∧ (op false).channel = some ch ∧
      (op true).reads = (op false).reads ∧ (op true).included = (op false).included ∧
      .dayDate ∉ (op true).included := by
  simp only [List.mem_cons, List.not_mem_nil, or_false] at hop
  rcases hop with rfl | rfl | rfl | rfl | rfl <;> exact ⟨_, rfl, rfl, rfl, rfl, by decide⟩

/-- Settles O34: the nine operations are one encoder of `ts` under the selector, whose bytes look at
the selector in the day/date field only. -/
theorem alarmReadsOnlyTimestampAndSelector : Obligations.AlarmReadsOnlyTimestampAndSelector := by
  refine ⟨fun i s t halarm hts => ?_, fun op hop s r => ?_, fun i s t ch hch hnext => ?_⟩
  · obtain ⟨ch, hch⟩ := Option.isSome_iff_exists.1 halarm
    exact alarm_outcome_of_ts_eq hch hts
  · obtain ⟨ch, htrue, hfalse, hreads, hincl, hno⟩ := both_words_of_no_dayDate hop
    exact gives_alarm_iff_of_dayDate_not_mem htrue hfalse hreads hincl hno
  · obtain ⟨-, rfl⟩ := (exec_alarm_eq_next_iff hch).1 hnext
    refine ⟨_, rfl, ?_⟩
    rw [alarmBytes_length]
    cases ch <;> rfl

end Sys2Proof.Machine
end
section
/-!
PROOFS. Command words (30_encoding R48 to R51): encoding and decoding undo each other, and what is
not decoded is reserved.
-/

namespace Sys2Proof

/-! ### Encoding and decoding undo each other -/

@[simp] theorem decodeCmd_encode (i : Instr) : decodeCmd (encode i) = .ok i := by
  cases i with
  | tenc d | tdec d | a1S d | a1Ms d | a1Hms d | a2M d | a2Hm d => cases d <;> rfl
  | a1DhmsDay | a1DhmsDate | a2DhmDay | a2DhmDate => rfl

theorem encode_of_decodeCmd {c : Cmd} {i : Instr} (h : decodeCmd c = .ok i) : encode i = c := by
  have every_word : ∀ c : Cmd, ∀ i ∈ (decodeCmd c).toOption, encode i = c := by decide
  exact every_word c i (by simp [h, Except.toOption])

theorem decodeCmd_eq_ok_iff {c : Cmd} {i : Instr} : decodeCmd c = .ok i ↔ encode i = c :=
  ⟨encode_of_decodeCmd, fun h => h ▸ decodeCmd_encode i⟩

/-! ### What is not decoded -/

theorem decodeCmd_reserved {c : Cmd} (h : 9 ≤ c.toNat % 16) :
    decodeCmd c = .error (.reservedCommand c) := by
  revert c
  decide

/-- The decoder by the op in bits 3:0: an unreserved word has its operation. -/
theorem decodeCmd_unreserved {c : Cmd} (h : c.toNat % 16 ≤ 8) : ∃ i, decodeCmd c = .ok i := by
  have every_word : ∀ c : Cmd, c.toNat % 16 ≤ 8 → (decodeCmd c).isOk = true := by decide
  have hok := every_word c h
  cases hd : decodeCmd c with
  | ok i => exact ⟨i, rfl⟩
  | error e => simp [hd, Except.isOk, Except.toBool] at hok

theorem decodeCmd_eq_error_iff {c : Cmd} {e : DecodeError} :
    decodeCmd c = .error e ↔ 9 ≤ c.toNat % 16 ∧ e = .reservedCommand c := by
  rcases Nat.lt_or_ge 8 (c.toNat % 16) with h | h
  · simp [decodeCmd_reserved h, Nat.succ_le_of_lt h, eq_comm]
  · obtain ⟨i, hi⟩ := decodeCmd_unreserved h
    simp [hi, Nat.not_le.2 (Nat.lt_succ_of_le h)]

/-! ### Words of the opcode table -/

theorem decodeTableWord_eq_some_iff {nbits w : Nat} {i : Instr} :
    decodeTableWord nbits w = some i ↔ w < 32 ∧ encode i = BitVec.ofNat 5 w := by
  rw [← decodeCmd_eq_ok_iff]
  by_cases hw : w < 32
  · cases hd : decodeCmd (BitVec.ofNat 5 w) <;> simp [decodeTableWord, decodeWord, hw, hd]
  · simp [decodeTableWord, decodeWord, hw]

/-! ### The statements -/

/-- Settles O2: the decoder inverts the encoder on the operations' words and refuses all others. -/
theorem decodingInvertsEncoding : Obligations.DecodingInvertsEncoding :=
  ⟨fun _ _ => decodeCmd_eq_ok_iff, fun _ _ => decodeCmd_eq_error_iff,
    fun _ _ _ => decodeTableWord_eq_some_iff⟩

/-- Settles O1, word by word. -/
theorem commandWordsDecodeByTheTable : Obligations.CommandWordsDecodeByTheTable :=
  ⟨rfl, rfl, rfl, rfl, rfl, rfl, rfl, rfl, rfl, rfl, rfl, rfl, rfl, rfl, rfl, rfl, rfl, rfl, rfl,
    rfl, rfl, rfl⟩

end Sys2Proof
end

section
/-!
PROOFS. The register bytes (30_encoding R52 to R66) in plain numbers: what each field primitive
reads from a byte, and what stands where in a byte that BCD packing and flag bits make.
-/

namespace Sys2Proof.Machine

/-! ### Bits and bit fields as quotients and remainders -/

theorem getLsbD_eq_decide {w : Nat} (b : BitVec w) (k : Nat) :
    b.getLsbD k = decide (b.toNat / 2 ^ k % 2 = 1) := Nat.testBit_eq_decide_div_mod_eq

theorem toNat_extractLsb'_eq {w : Nat} (b : BitVec w) (k n : Nat) :
    (b.extractLsb' k n).toNat = b.toNat / 2 ^ k % 2 ^ n := by
  rw [BitVec.extractLsb'_toNat, Nat.shiftRight_eq_div_pow]

theorem ones_eq_mod (b : Byte) : ones b = b.toNat % 16 :=
  (toNat_extractLsb'_eq b 0 4).trans (congrArg (· % 16) (Nat.div_one _))

theorem tensSec_eq (p : DecodeMaskProfile) (b : Byte) :
    tensSec p b = b.toNat / 16 % byProfile p 8 16 := by
  cases p with
  | narrow => exact toNat_extractLsb'_eq b 4 3
  | wide => exact toNat_extractLsb'_eq b 4 4

theorem tensMin_eq (p : DecodeMaskProfile) (b : Byte) :
    tensMin p b = b.toNat / 16 % byProfile p 8 16 := tensSec_eq p b

theorem tensDom_eq (p : DecodeMaskProfile) (b : Byte) :
    tensDom p b = b.toNat / 16 % byProfile p 4 16 := by
  cases p with
  | narrow => exact toNat_extractLsb'_eq b 4 2
  | wide => exact toNat_extractLsb'_eq b 4 4

theorem tensMonth_eq (p : DecodeMaskProfile) (b : Byte) :
    tensMonth p b = b.toNat / 16 % byProfile p 2 8 := by
  cases p with
  | narrow => exact toNat_extractLsb'_eq b 4 1
  | wide => exact toNat_extractLsb'_eq b 4 3

theorem tensHour24_eq (b : Byte) : tensHour24 b = b.toNat / 16 % 4 :=
  toNat_extractLsb'_eq b 4 2

theorem tensHour12_eq (b : Byte) : tensHour12 b = b.toNat / 16 % 2 :=
  toNat_extractLsb'_eq b 4 1

theorem tensYear_eq (b : Byte) : tensYear b = b.toNat / 16 := by
  have := b.isLt
  simp only [tensYear, toNat_extractLsb'_eq]
  omega

theorem dowUnpack_eq (b : Byte) : dowUnpack b = b.toNat % 8 :=
  (toNat_extractLsb'_eq b 0 3).trans (congrArg (· % 8) (Nat.div_one _))

theorem is12Hour_eq (b : Byte) : is12Hour b = decide (b.toNat / 64 % 2 = 1) := getLsbD_eq_decide b 6

theorem pmOf_eq (b : Byte) : pmOf b = decide (b.toNat / 32 % 2 = 1) := getLsbD_eq_decide b 5

theorem centuryOf_eq (b : Byte) : centuryOf b = decide (128 ≤ b.toNat) := by
  have := b.isLt
  rw [centuryOf, getLsbD_eq_decide, decide_eq_decide]
  omega

/-! ### Digits: a mask on the tens loses exactly what it cuts -/

theorem unbcd_digits_mod_eq_iff {v n : Nat} (hn : 0 < n) :
    unbcd (v / 10 % n) (v % 10) = v ↔ v < 10 * n := by
  have := Nat.mod_lt (v / 10) hn
  constructor
  · intro h
    simp only [unbcd] at h
    omega
  · intro h
    have : v / 10 < n := by omega
    rw [Nat.mod_eq_of_lt this, unbcd, Nat.mod_add_div]

/-! ### BCD bytes -/

theorem toNat_bcd2 {v : Nat} (h : v < 100) : (bcd2 v).toNat = 16 * (v / 10) + v % 10 := by
  have hor : (v / 10) <<< 4 ||| v % 10 = (v / 10) <<< 4 + v % 10 :=
    (Nat.shiftLeft_add_eq_or_of_lt (by omega) _).symm
  rw [bcd2, hor, Nat.shiftLeft_eq, BitVec.toNat_ofNat]
  omega

theorem bcd2_eq_bcdByte {v : Nat} (h : v < 100) : bcd2 v = bcdByte v := by
  apply BitVec.eq_of_toNat_eq
  rw [toNat_bcd2 h, bcdByte, BitVec.toNat_ofNat]
  omega

theorem ones_bcd2 {v : Nat} (h : v < 100) : ones (bcd2 v) = v % 10 := by
  rw [ones_eq_mod, toNat_bcd2 h]
  omega

/-- Any field of tens bits holds the tens digit modulo the field's size. -/
theorem tens_bcd2 {v : Nat} (h : v < 100) (n : Nat) :
    ((bcd2 v).extractLsb' 4 n).toNat = v / 10 % 2 ^ n := by
  rw [toNat_extractLsb'_eq, toNat_bcd2 h]
  congr 1
  omega

/-- Bit `4 + j` of the byte is bit `j` of the tens digit. -/
theorem bcd2_tens_bit {v : Nat} (h : v < 100) (j : Nat) :
    (bcd2 v).getLsbD (4 + j) = decide (v / 10 / 2 ^ j % 2 = 1) := by
  have tens : (16 * (v / 10) + v % 10) / 2 ^ 4 = v / 10 := by omega
  rw [getLsbD_eq_decide, toNat_bcd2 h, pow_add, ← Nat.div_div_eq_div_mul, tens]

theorem bcd2_bit7 {v : Nat} (h : v < 100) : (bcd2 v).getLsbD 7 = true ↔ 80 ≤ v := by
  rw [bcd2_tens_bit h 3, decide_eq_true_iff]
  omega

theorem bcd2_bit6 {v : Nat} (h : v < 100) : (bcd2 v).getLsbD 6 = true ↔ 40 ≤ v ∧ v ≤ 79 := by
  rw [bcd2_tens_bit h 2, decide_eq_true_iff]
  omega

theorem bcd2_bit5 {v : Nat} (h : v < 100) :
    (bcd2 v).getLsbD 5 = true ↔ v / 10 = 2 ∨ v / 10 = 3 ∨ v / 10 = 6 ∨ v / 10 = 7 := by
  rw [bcd2_tens_bit h 1, decide_eq_true_iff]
  omega

/-! ### Flag bits ORed onto a BCD byte -/

@[simp] theorem pmBit_false : pmBit false = 0x00#8 := rfl
@[simp] theorem pmBit_true : pmBit true = 0x20#8 := rfl
@[simp] theorem centuryBit_false : centuryBit false = 0x00#8 := rfl
@[simp] theorem centuryBit_true : centuryBit true = 0x80#8 := rfl

@[simp] theorem value_h24 (v : Nat) : (Hour.h24 v).value = v := rfl
@[simp] theorem value_h12 (v : Nat) (pm : Bool) : (Hour.h12 v pm).value = v := rfl

theorem hourPack_eq_hoursByte {h : Hour} (hv : h.value < 100) : hourPack h = hoursByte h := by
  cases h with
  | h24 v => exact bcd2_eq_bcdByte hv
  | h12 v pm =>
    have hb : bcd2 v = bcdByte v := bcd2_eq_bcdByte hv
    cases pm <;> simp [hourPack, hoursByte, modeBit, hb]

theorem monthPack_eq_monthByte {m : Nat} (h : m < 100) (c : Bool) :
    monthPack m c = monthByte m c := by
  cases c <;> simp [monthPack, monthByte, bcd2_eq_bcdByte h]

/-- The 12-hour flags leave the ones digit and the tens bit alone. -/
theorem hourPack_h12_digits {v : Nat} (h : v < 100) (pm : Bool) :
    ones (hourPack (.h12 v pm)) = v % 10 ∧ tensHour12 (hourPack (.h12 v pm)) = v / 10 % 2 := by
  rw [← ones_bcd2 h, tensHour12]
  cases pm <;> simp [hourPack, modeBit, ones, BitVec.extractLsb'_or, tens_bcd2 h]

theorem hourPack_h12_bits (v : Nat) (pm : Bool) :
    (hourPack (.h12 v pm)).getLsbD 7 = (bcd2 v).getLsbD 7 ∧
    (hourPack (.h12 v pm)).getLsbD 6 = true ∧
    (hourPack (.h12 v pm)).getLsbD 5 = (pm || (bcd2 v).getLsbD 5) := by
  cases pm <;> simp [hourPack, modeBit]

/-- The century flag reaches bit 7 only, so it is no part of what is read below it. -/
theorem monthPack_field (m : Nat) (c : Bool) {k n : Nat} (h : k + n ≤ 7) :
    (monthPack m c).extractLsb' k n = (bcd2 m).extractLsb' k n := by
  apply BitVec.eq_of_getLsbD_eq
  intro i hi
  have below : k + i < 7 := by omega
  have flag_bit : (centuryBit c).getLsbD (k + i) = false := by
    simp [centuryBit, BitVec.getLsbD_shiftLeft, below]
  simp [monthPack, BitVec.getLsbD_extractLsb', flag_bit]

theorem monthPack_bit7 (m : Nat) (c : Bool) :
    (monthPack m c).getLsbD 7 = (c || (bcd2 m).getLsbD 7) := by
  cases c <;> simp [monthPack]

end Sys2Proof.Machine
end

section
/-!
PROOFS. What an evaluation of any operation does (40_time_codec R73, 41_alarm_codec R88): its result
in contract, its fault out of contract, and nothing else.
-/

namespace Sys2Proof.Machine

/-! ### One result per operation -/

/-- The result of each operation in contract, over the model's tables. `exec_inContract` ties it to
`exec`. -/
def resultOf (i : Instr) (s : State) : Result :=
  match i, i.channel with
  | _, some ch => .bytes (alarmBytes ch i.included s.ts i.dysel)
  | .tdec _, none => .decoded (decodeTime s.profile s.rb)
  | _, none => .bytes (encodeTime s.ts).toList

theorem resultOf_tenc (d : Bool) (s : State) :
    resultOf (.tenc d) s = .bytes (encodeTime s.ts).toList := rfl

theorem resultOf_tdec (d : Bool) (s : State) :
    resultOf (.tdec d) s = .decoded (decodeTime s.profile s.rb) := rfl

theorem resultOf_alarm {i : Instr} {ch : Channel} (h : i.channel = some ch) (s : State) :
    resultOf i s = .bytes (alarmBytes ch i.included s.ts i.dysel) := by
  simp [resultOf, h]

/-- An operation is TENC, TDEC or one of an alarm channel. -/
theorem codec_cases (i : Instr) :
    (∃ d, i = .tenc d) ∨ (∃ d, i = .tdec d) ∨ ∃ ch, i.channel = some ch := by
  cases i with
  | tenc d => exact .inl ⟨d, rfl⟩
  | tdec d => exact .inr (.inl ⟨d, rfl⟩)
  | a1S | a1Ms | a1Hms | a1DhmsDay | a1DhmsDate | a2M | a2Hm | a2DhmDay | a2DhmDate =>
    exact .inr (.inr ⟨_, rfl⟩)

theorem exec_tenc_eq (d : Bool) (s : State) :
    exec (.tenc d) s =
      encodeResult (encode (.tenc d)) (Instr.tenc d).reads (encodeTime s.ts).toList s := rfl

/-! ### Completion and fault -/

theorem exec_inContract {i : Instr} {s : State} (h : InContract i s.ts) :
    exec i s = .next (s.withOut (resultOf i s)) := by
  obtain ⟨d, rfl⟩ | ⟨d, rfl⟩ | ⟨ch, hch⟩ := codec_cases i
  · exact (exec_tenc_eq d s).trans (encodeResult_ok h)
  · exact gives_tdec s d
  · rw [resultOf_alarm hch]
    exact (exec_alarm_eq_next_iff hch).2 ⟨h, rfl⟩

theorem exec_not_inContract {i : Instr} {s : State} (h : ¬ InContract i s.ts) :
    exec i s = .fault (.fieldRange (encode i) (offending i.reads s.ts)) := by
  obtain ⟨d, rfl⟩ | ⟨d, rfl⟩ | ⟨ch, hch⟩ := codec_cases i
  · exact (exec_tenc_eq d s).trans (encodeResult_fault h)
  · exact absurd (by simp [InContract, Instr.reads]) h
  · exact (exec_alarm_eq_fault_iff hch).2 ⟨h, rfl⟩

theorem exec_eq_next_iff {i : Instr} {s t : State} :
    exec i s = .next t ↔ InContract i s.ts ∧ t = s.withOut (resultOf i s) := by
  by_cases h : InContract i s.ts
  · rw [exec_inContract h]
    exact ⟨fun e => ⟨h, (Host.Outcome.next.inj e).symm⟩, fun e => e.2 ▸ rfl⟩
  · rw [exec_not_inContract h]
    exact ⟨nofun, fun e => absurd e.1 h⟩

theorem exec_eq_fault_iff {i : Instr} {s : State} {f : Fault} :
    exec i s = .fault f ↔
      ¬ InContract i s.ts ∧ f = .fieldRange (encode i) (offending i.reads s.ts) := by
  by_cases h : InContract i s.ts
  · rw [exec_inContract h]
    exact ⟨nofun, fun e => absurd h e.1⟩
  · rw [exec_not_inContract h]
    exact ⟨fun e => ⟨h, (Host.Outcome.fault.inj e).symm⟩, fun e => e.2 ▸ rfl⟩

theorem gives_iff {i : Instr} {s : State} {r : Result} :
    Gives i s r ↔ InContract i s.ts ∧ r = resultOf i s :=
  exec_eq_next_iff.trans (and_congr_right fun _ => State.withOut_inj)

theorem gives_inContract {i : Instr} {s : State} (h : InContract i s.ts) :
    Gives i s (resultOf i s) := exec_inContract h

/-- `InContract` of TENC, field by field. -/
theorem inContract_tenc_iff {d : Bool} {ts : Timestamp} :
    InContract (.tenc d) ts ↔
      ts.seconds < 100 ∧ ts.minutes < 100 ∧ ts.hour.value < 100 ∧ ts.dayOfWeek < 100 ∧
        ts.dayOfMonth < 100 ∧ ts.month < 100 ∧ ts.year < 100 := by
  simp [InContract, Instr.reads, fieldValue]

theorem gives_tenc {d : Bool} {s : State} (h : InContract (.tenc d) s.ts) :
    Gives (.tenc d) s (.bytes (encodeTime s.ts).toList) := gives_inContract h

/-! ### The fields a fault names -/

theorem reads_nodup (i : Instr) : i.reads.Nodup := by
  cases i <;> simp [Instr.reads]

theorem offending_nodup (i : Instr) (ts : Timestamp) : (offending i.reads ts).Nodup :=
  (reads_nodup i).sublist (offending_sublist _ ts)

theorem offending_ne_nil {i : Instr} {ts : Timestamp} (h : ¬ InContract i ts) :
    offending i.reads ts ≠ [] := mt offending_eq_nil.1 h

/-- Settles O7: an evaluation completes in contract and otherwise raises the fault. -/
theorem evaluationCompletesExactlyInContract :
    Obligations.EvaluationCompletesExactlyInContract := by
  intro i s
  refine ⟨fun h => ⟨_, gives_inContract h⟩, fun h => ?_⟩
  exact ⟨_, exec_not_inContract h, rfl, fun _ => mem_offending, offending_nodup i s.ts⟩

/-! ### What an operation reads -/

theorem contractCoversEncodedFields (i : Instr) : Laws.ContractCoversEncodedFields.Statement i := by
  cases i with
  | tenc d => exact Laws.ContractCoversEncodedFields.tenc d
  | tdec d => exact Laws.ContractCoversEncodedFields.tdec d
  | a1S d => exact Laws.ContractCoversEncodedFields.a1S d
  | a1Ms d => exact Laws.ContractCoversEncodedFields.a1Ms d
  | a1Hms d => exact Laws.ContractCoversEncodedFields.a1Hms d
  | a1DhmsDay => exact Laws.ContractCoversEncodedFields.a1DhmsDay
  | a1DhmsDate => exact Laws.ContractCoversEncodedFields.a1DhmsDate
  | a2M d => exact Laws.ContractCoversEncodedFields.a2M d
  | a2Hm d => exact Laws.ContractCoversEncodedFields.a2Hm d
  | a2DhmDay => exact Laws.ContractCoversEncodedFields.a2DhmDay
  | a2DhmDate => exact Laws.ContractCoversEncodedFields.a2DhmDate

/-- The field behind an included position is one the operation reads and checks. -/
theorem positionField_mem_reads {i : Instr} {ch : Channel} (h : i.channel = some ch) {x : Position}
    (hx : x ∈ i.included) : positionField i.dysel x ∈ i.reads := by
  rw [(contractCoversEncodedFields i).1 (by simp [Instr.isAlarm, h])]
  exact List.mem_map_of_mem hx

theorem positionField_eq_hours_iff {d : Bool} {x : Position} :
    positionField d x = .hours ↔ x = .hours := by
  cases x <;> cases d <;> decide

/-- A packed position is a function of its field, and of the hour's mode for hours. -/
theorem packPosition_congr {ts us : Timestamp} {d : Bool} {x : Position}
    (hv : fieldValue ts (positionField d x) = fieldValue us (positionField d x))
    (hh : x = .hours → ts.hour = us.hour) : packPosition ts d x = packPosition us d x := by
  cases x with
  | seconds | minutes => exact congrArg bcd2 hv
  | hours => exact congrArg hourPack (hh rfl)
  | dayDate =>
    cases d with
    | false => exact congrArg bcd2 hv
    | true => exact congrArg (selectorBit ||| dowPack ·) hv

theorem alarmBytes_congr {ch : Channel} {included : List Position} {ts us : Timestamp} {d : Bool}
    (h : ∀ x ∈ included, packPosition ts d x = packPosition us d x) :
    alarmBytes ch included ts d = alarmBytes ch included us d := by
  have same_byte (x : Position) :
      (if x ∈ included then packPosition ts d x else dontCare) =
        if x ∈ included then packPosition us d x else dontCare := by
    split
    · next hx => exact h x hx
    · rfl
  simp only [alarmBytes, same_byte]

theorem offending_congr {checked : List Field} {ts us : Timestamp}
    (h : ∀ f ∈ checked, fieldValue ts f = fieldValue us f) :
    offending checked ts = offending checked us :=
  List.filter_congr fun f hf => by rw [h f hf]

/-- What TENC reads, the hour's mode and the century flag included, is the whole timestamp. -/
theorem eq_of_tenc_inputs_eq {ts us : Timestamp}
    (h : ∀ f ∈ (Instr.tenc false).reads, fieldValue ts f = fieldValue us f)
    (hh : ts.hour = us.hour) (hc : ts.isCentury = us.isCentury) : ts = us := by
  obtain ⟨hs, hm, -, hw, hd, ho, hy⟩ :
      ts.seconds = us.seconds ∧ ts.minutes = us.minutes ∧ ts.hour.value = us.hour.value ∧
        ts.dayOfWeek = us.dayOfWeek ∧ ts.dayOfMonth = us.dayOfMonth ∧ ts.month = us.month ∧
        ts.year = us.year := by
    simpa [Instr.reads, fieldValue] using h
  cases ts
  cases us
  rw [Timestamp.mk.injEq]
  exact ⟨hs, hm, hh, hw, hd, ho, hy, hc⟩

/-- Settles O8: contract check and result are functions of the inputs the statement names. -/
theorem outcomeDependsOnlyOnInputsRead : Obligations.OutcomeDependsOnlyOnInputsRead := by
  intro i s t hv hhour hcentury hdec
  have contract : InContract i s.ts ↔ InContract i t.ts :=
    forall₂_congr fun f hf => by rw [hv f hf]
  have result : resultOf i s = resultOf i t := by
    obtain ⟨d, rfl⟩ | ⟨d, rfl⟩ | ⟨ch, hch⟩ := codec_cases i
    · rw [resultOf_tenc, resultOf_tenc,
        eq_of_tenc_inputs_eq hv (hhour (by simp [Instr.reads])) (hcentury ⟨d, rfl⟩)]
    · obtain ⟨hrb, hp⟩ := hdec ⟨d, rfl⟩
      rw [resultOf_tdec, resultOf_tdec, hrb, hp]
    · have same_byte : ∀ x ∈ i.included,
          packPosition s.ts i.dysel x = packPosition t.ts i.dysel x := fun x hx =>
        packPosition_congr (hv _ (positionField_mem_reads hch hx)) fun e =>
          hhour (positionField_eq_hours_iff.2 e ▸ positionField_mem_reads hch hx)
      rw [resultOf_alarm hch, resultOf_alarm hch, alarmBytes_congr same_byte]
  exact ⟨fun r => by rw [gives_iff, gives_iff, contract, result],
    fun f => by rw [exec_eq_fault_iff, exec_eq_fault_iff, contract, offending_congr hv]⟩

/-! ### The ignored selector -/

/-- What the two words of an operation without a day/date field share, and where they differ. -/
theorem both_words_share {op : Bool → Instr}
    (hop : op ∈ [Instr.tenc, .tdec, .a1S, .a1Ms, .a1Hms, .a2M, .a2Hm]) (s : State) :
    (op true).reads = (op false).reads ∧ resultOf (op true) s = resultOf (op false) s ∧
      encode (op true) = 0x10#5 ||| encode (op false) := by
  simp only [List.mem_cons, List.not_mem_nil, or_false] at hop
  rcases hop with rfl | rfl | rfl | rfl | rfl | rfl | rfl <;> exact ⟨rfl, rfl, rfl⟩

/-- Settles O9: contract, result and offending fields do not look at the ignored bit. -/
theorem ignoredSelectorChangesNoResult : Obligations.IgnoredSelectorChangesNoResult := by
  intro op hop s
  obtain ⟨hreads, hresult, hword⟩ := both_words_share hop s
  refine ⟨fun r => ?_, fun fields => ?_, hword⟩
  · rw [gives_iff, gives_iff, InContract, InContract, hreads, hresult]
  · simp [exec_eq_fault_iff, InContract, hreads]

/-! ### The shape of the results -/

theorem alarmBytes_eq_cons (ch : Channel) (included : List Position) (ts : Timestamp) (d : Bool) :
    ∃ regs, alarmBytes ch included ts d = channelAddress ch :: regs ∧
      regs.length = (channelPositions ch).length :=
  ⟨_, rfl, by simp⟩

/-- Settles O10, from the one result an evaluation with a next state has. -/
theorem resultShapeByOperation : Obligations.ResultShapeByOperation := by
  intro i s t h
  obtain ⟨-, rfl⟩ := exec_eq_next_iff.1 h
  refine ⟨?_, ?_, fun hch => ?_, fun hch => ?_⟩
  · rintro ⟨d, rfl⟩
    exact ⟨_, rfl, rfl, rfl⟩
  · rintro ⟨d, rfl⟩
    exact ⟨_, rfl, rfl⟩
  all_goals
    obtain ⟨regs, hbytes, hlen⟩ := alarmBytes_eq_cons _ i.included s.ts i.dysel
    rw [State.withOut_out, resultOf_alarm hch, hbytes]
    exact ⟨regs, rfl, hlen, by simp [olen, hlen, channelPositions]⟩

end Sys2Proof.Machine
end

section
/-!
PROOFS. The round trip of the Time Codec (40_time_codec R81, R83): TDEC gives back a timestamp that
TENC packed exactly when no tens digit leaves the bits its field is read from.
-/

namespace Sys2Proof.Machine

/-! ### Field by field -/

section
variable {p : DecodeMaskProfile} {v : Nat} (h : v < 100)
include h

/-- A BCD byte read through `n` tens bits. -/
theorem unbcd_tens_bcd2_eq_iff (n : Nat) :
    unbcd ((bcd2 v).extractLsb' 4 n).toNat (ones (bcd2 v)) = v ↔ v < 10 * 2 ^ n := by
  rw [tens_bcd2 h, ones_bcd2 h]
  exact unbcd_digits_mod_eq_iff (Nat.two_pow_pos n)

theorem unbcd_tensSec_bcd2_eq_iff :
    unbcd (tensSec p (bcd2 v)) (ones (bcd2 v)) = v ↔ v < byProfile p 80 160 := by
  cases p with
  | narrow => exact unbcd_tens_bcd2_eq_iff h 3
  | wide => exact unbcd_tens_bcd2_eq_iff h 4

theorem unbcd_tensDom_bcd2_eq_iff :
    unbcd (tensDom p (bcd2 v)) (ones (bcd2 v)) = v ↔ v < byProfile p 40 160 := by
  cases p with
  | narrow => exact unbcd_tens_bcd2_eq_iff h 2
  | wide => exact unbcd_tens_bcd2_eq_iff h 4

theorem unbcd_tensYear_bcd2 : unbcd (tensYear (bcd2 v)) (ones (bcd2 v)) = v :=
  (unbcd_tens_bcd2_eq_iff h 4).2 (by omega)

theorem monthUnpack_monthPack_eq_iff (c : Bool) :
    monthUnpack p (monthPack v c) = v ↔ v < byProfile p 20 80 := by
  have digit : ones (monthPack v c) = ones (bcd2 v) :=
    congrArg BitVec.toNat (monthPack_field v c (by decide))
  rw [monthUnpack, digit]
  cases p with
  | narrow =>
    rw [tensMonth, monthPack_field v c (by decide)]
    exact unbcd_tens_bcd2_eq_iff h 1
  | wide =>
    rw [tensMonth, monthPack_field v c (by decide)]
    exact unbcd_tens_bcd2_eq_iff h 3

theorem centuryOf_monthPack (c : Bool) : centuryOf (monthPack v c) = (c || decide (80 ≤ v)) := by
  rw [centuryOf, monthPack_bit7, ← Bool.decide_coe ((bcd2 v).getLsbD 7),
    decide_eq_decide.2 (bcd2_bit7 h)]

end

/-- The hours TDEC gives back: the tens digit fits the bits of the hour's mode. -/
def HourSurvives : Hour → Prop
  | .h24 v => v < 40
  | .h12 v _ => v < 20

@[simp] theorem hourSurvives_h24 (v : Nat) : HourSurvives (.h24 v) ↔ v < 40 := Iff.rfl
@[simp] theorem hourSurvives_h12 (v : Nat) (pm : Bool) : HourSurvives (.h12 v pm) ↔ v < 20 :=
  Iff.rfl

theorem hourUnpack_hourPack_eq_iff {h : Hour} (hv : h.value < 100) :
    hourUnpack (hourPack h) = h ↔ HourSurvives h := by
  cases h with
  | h24 v =>
    have hv : v < 100 := hv
    have mode : is12Hour (bcd2 v) = true ↔ 40 ≤ v ∧ v ≤ 79 := bcd2_bit6 hv
    by_cases hm : 40 ≤ v ∧ v ≤ 79
    · simp only [hourPack, hourUnpack, mode.2 hm, if_true, reduceCtorEq, hourSurvives_h24,
        false_iff]
      omega
    · simp only [hourPack, hourUnpack, mt mode.1 hm, hourSurvives_h24, tensHour24, tens_bcd2 hv,
        ones_bcd2 hv]
      simpa using unbcd_digits_mod_eq_iff (v := v) (n := 4) (by decide)
  | h12 v pm =>
    have hv : v < 100 := hv
    obtain ⟨hones, htens⟩ := hourPack_h12_digits hv pm
    obtain ⟨-, hmode, hpm⟩ := hourPack_h12_bits v pm
    have digits : unbcd (v / 10 % 2) (v % 10) = v ↔ v < 20 := unbcd_digits_mod_eq_iff (by decide)
    have meridiem : v < 20 → (bcd2 v).getLsbD 5 = false := fun h =>
      Bool.eq_false_iff.2 (mt (bcd2_bit5 hv).1 (by omega))
    rw [hourUnpack, is12Hour, if_pos hmode, hones, htens, pmOf, hpm, Hour.h12.injEq, digits]
    exact ⟨fun e => e.1, fun e => ⟨e, by rw [meridiem e, Bool.or_false]⟩⟩

theorem dowUnpack_dowPack (v : Nat) : dowUnpack (dowPack v) = v % 8 := by
  rw [dowUnpack_eq, dowPack, BitVec.toNat_setWidth, BitVec.toNat_ofNat]
  omega

/-! ### The whole timestamp -/

/-- Every tens digit (and day-of-week) fits the bits its field is read from under a profile. -/
structure SurvivesDecoding (p : DecodeMaskProfile) (ts : Timestamp) : Prop where
  seconds : ts.seconds < byProfile p 80 160
  minutes : ts.minutes < byProfile p 80 160
  hour : HourSurvives ts.hour
  dayOfWeek : ts.dayOfWeek < 8
  dayOfMonth : ts.dayOfMonth < byProfile p 40 160
  month : ts.month < byProfile p 20 80

theorem survivesDecoding_iff {p : DecodeMaskProfile} {ts : Timestamp} :
    SurvivesDecoding p ts ↔
      ts.seconds < byProfile p 80 160 ∧ ts.minutes < byProfile p 80 160 ∧ HourSurvives ts.hour ∧
        ts.dayOfWeek < 8 ∧ ts.dayOfMonth < byProfile p 40 160 ∧ ts.month < byProfile p 20 80 :=
  ⟨fun ⟨hs, hm, hh, hw, hd, ho⟩ => ⟨hs, hm, hh, hw, hd, ho⟩,
    fun ⟨hs, hm, hh, hw, hd, ho⟩ => ⟨hs, hm, hh, hw, hd, ho⟩⟩

theorem decodeTime_encodeTime_eq_iff {p : DecodeMaskProfile} {ts : Timestamp}
    (h : InContract (.tenc false) ts) :
    decodeTime p (encodeTime ts) = ts ↔ SurvivesDecoding p ts := by
  obtain ⟨hs, hm, hh, -, hd, ho, hy⟩ := inContract_tenc_iff.1 h
  have dow : ts.dayOfWeek % 8 = ts.dayOfWeek ↔ ts.dayOfWeek < 8 := Nat.mod_eq_iff_lt (by decide)
  constructor
  · intro e
    obtain ⟨es, em, eh, ew, ed, eo, -⟩ := Timestamp.mk.inj e
    exact ⟨(unbcd_tensSec_bcd2_eq_iff hs).1 es, (unbcd_tensSec_bcd2_eq_iff hm).1 em,
      (hourUnpack_hourPack_eq_iff hh).1 eh, dow.1 (dowUnpack_dowPack _ ▸ ew),
      (unbcd_tensDom_bcd2_eq_iff hd).1 ed, (monthUnpack_monthPack_eq_iff ho _).1 eo⟩
  · intro ⟨es, em, eh, ew, ed, eo⟩
    have century : ¬ 80 ≤ ts.month := by
      cases p <;> simp only [byProfile] at eo <;> omega
    simp only [decodeTime, encodeTime]
    congr 1
    · exact (unbcd_tensSec_bcd2_eq_iff hs).2 es
    · exact (unbcd_tensSec_bcd2_eq_iff hm).2 em
    · exact (hourUnpack_hourPack_eq_iff hh).2 eh
    · exact (dowUnpack_dowPack _).trans (dow.2 ew)
    · exact (unbcd_tensDom_bcd2_eq_iff hd).2 ed
    · exact (monthUnpack_monthPack_eq_iff ho _).2 eo
    · exact unbcd_tensYear_bcd2 hy
    · rw [centuryOf_monthPack ho]
      simp [century]

theorem toList_injective {a b : RegBytes} (h : a.toList = b.toList) : a = b := by
  cases a
  cases b
  simpa [RegBytes.toList] using h

/-- The bytes of `RoundTrips` are TENC's, so it is a fact about the two codecs. -/
theorem roundTrips_iff {p : DecodeMaskProfile} {ts : Timestamp} :
    RoundTrips p ts ↔ InContract (.tenc false) ts ∧ SurvivesDecoding p ts := by
  constructor
  · rintro ⟨rb, henc, hdec⟩
    obtain ⟨hc, hbytes⟩ := gives_iff.1 (henc { State.reset with ts := ts } false rfl)
    obtain ⟨-, hts⟩ := gives_iff.1 (hdec { State.reset with profile := p, rb := rb } false rfl rfl)
    obtain rfl : rb = encodeTime ts := toList_injective (Result.bytes.inj hbytes)
    exact ⟨hc, (decodeTime_encodeTime_eq_iff hc).1 (Result.decoded.inj hts).symm⟩
  · rintro ⟨hc, hsurv⟩
    refine ⟨encodeTime ts, ?_, ?_⟩
    · rintro s d rfl
      exact gives_tenc hc
    · rintro t d rfl hrb
      have hback := (decodeTime_encodeTime_eq_iff hc).2 hsurv
      rw [← hrb] at hback
      exact hback ▸ gives_tdec t d

/-! ### Valid timestamps -/

theorem valid_iff {ts : Timestamp} :
    ts.valid = true ↔
      ts.seconds ≤ 59 ∧ ts.minutes ≤ 59 ∧ ts.hour.valid = true ∧
        (1 ≤ ts.dayOfWeek ∧ ts.dayOfWeek ≤ 7) ∧ (1 ≤ ts.dayOfMonth ∧ ts.dayOfMonth ≤ 31) ∧
        (1 ≤ ts.month ∧ ts.month ≤ 12) ∧ ts.year ≤ 99 := by
  simp [Timestamp.valid, Timestamp.fieldValid]

theorem valid_h24_iff {v : Nat} : (Hour.h24 v).valid = true ↔ v ≤ 23 := decide_eq_true_iff

theorem valid_h12_iff {v : Nat} {pm : Bool} : (Hour.h12 v pm).valid = true ↔ 1 ≤ v ∧ v ≤ 12 := by
  simp [Hour.valid]

theorem hourSurvives_of_valid {h : Hour} (hv : h.valid = true) : HourSurvives h := by
  cases h with
  | h24 v => exact Nat.lt_of_le_of_lt (valid_h24_iff.1 hv) (by decide)
  | h12 v pm => exact Nat.lt_of_le_of_lt (valid_h12_iff.1 hv).2 (by decide)

theorem value_lt_of_valid {h : Hour} (hv : h.valid = true) : h.value < 24 := by
  cases h with
  | h24 v => exact Nat.lt_of_le_of_lt (valid_h24_iff.1 hv) (by decide)
  | h12 v pm => exact Nat.lt_of_le_of_lt (valid_h12_iff.1 hv).2 (by decide)

theorem fieldValue_lt_sixty_of_valid {ts : Timestamp} {f : Field} (hf : f ≠ .year)
    (h : ts.fieldValid f = true) : fieldValue ts f < 60 := by
  cases f with
  | year => exact absurd rfl hf
  | hours => exact Nat.lt_trans (value_lt_of_valid h) (by decide)
  | seconds | minutes | dayOfWeek | dayOfMonth | month =>
    simp only [Timestamp.fieldValid, Bool.and_eq_true, decide_eq_true_eq] at h
    simp only [fieldValue]
    omega

theorem fieldValue_lt_of_valid {ts : Timestamp} {f : Field} (h : ts.fieldValid f = true) :
    fieldValue ts f < 100 := by
  by_cases hf : f = .year
  · subst hf
    exact Nat.lt_succ_of_le (of_decide_eq_true h)
  · exact Nat.lt_trans (fieldValue_lt_sixty_of_valid hf h) (by decide)

theorem inContract_of_valid {i : Instr} {ts : Timestamp}
    (h : ∀ f ∈ i.reads, ts.fieldValid f = true) : InContract i ts :=
  fun f hf => fieldValue_lt_of_valid (h f hf)

theorem survivesDecoding_of_valid {ts : Timestamp} (h : ts.valid = true) (p : DecodeMaskProfile) :
    InContract (.tenc false) ts ∧ SurvivesDecoding p ts := by
  refine ⟨inContract_of_valid fun f hf => List.all_eq_true.1 h f hf, ?_⟩
  obtain ⟨hs, hm, hh, ⟨-, hw⟩, ⟨-, hd⟩, ⟨-, ho⟩, -⟩ := valid_iff.1 h
  constructor
  case hour => exact hourSurvives_of_valid hh
  case dayOfWeek => omega
  all_goals cases p <;> simp only [byProfile] <;> omega

/-- Settles O20: valid fields survive under either profile. -/
theorem validTimestampsRoundTrip : Obligations.ValidTimestampsRoundTrip :=
  fun p _ h => roundTrips_iff.2 (survivesDecoding_of_valid h p)

/-- Settles O21: with the other fields valid, the varied field's own bound is what is left of
`roundTrips_iff`. -/
theorem roundTripDomainIsExact : Obligations.RoundTripDomainIsExact := by
  intro p ts v hts hv
  obtain ⟨hc, hs⟩ := survivesDecoding_of_valid hts p
  obtain ⟨cs, cm, ch, cw, cd, co, cy⟩ := inContract_tenc_iff.1 hc
  obtain ⟨ss, sm, sh, sw, sd, so⟩ := hs
  refine ⟨?_, ?_, ?_, ?_, fun c => ?_, ?_, fun pm => ?_, ?_⟩ <;>
    simp only [roundTrips_iff, inContract_tenc_iff, survivesDecoding_iff, value_h24, value_h12,
      hourSurvives_h24, hourSurvives_h12, hv, cs, cm, ch, cw, cd, co, cy, ss, sm, sh, sw, sd, so,
      and_true, true_and]
  case refine_6 | refine_7 | refine_8 => omega
  all_goals cases p <;> simp only [byProfile, iff_true] <;> omega

end Sys2Proof.Machine
end

section
/-!
PROOFS. The Time Codec (40_time_codec R75 to R84, 30_encoding R52 to R66): TENC's and TDEC's bytes
and fields in plain numbers, bit by bit, and what the profiles share.
-/

namespace Sys2Proof.Machine

/-! ### TENC in plain numbers -/

/-- Settles O11, by the arithmetic of the packed byte. -/
theorem bcdPacksTwoDecimalDigits : Obligations.BcdPacksTwoDecimalDigits := by
  refine ⟨fun v hv => ?_, rfl, rfl, rfl⟩
  rw [toNat_bcd2 hv]
  omega

theorem dowPack_eq (v : Nat) : dowPack v = BitVec.ofNat 8 (v % 8) := by
  apply BitVec.eq_of_toNat_eq
  rw [dowPack, BitVec.toNat_setWidth, BitVec.toNat_ofNat, BitVec.toNat_ofNat]

theorem toNat_dowPack (v : Nat) : (dowPack v).toNat = v % 8 := by
  rw [dowPack_eq, BitVec.toNat_ofNat]
  omega

theorem encodeTime_inContract {d : Bool} {ts : Timestamp} (h : InContract (.tenc d) ts) :
    (encodeTime ts).toList =
      [bcdByte ts.seconds, bcdByte ts.minutes, hoursByte ts.hour, BitVec.ofNat 8 (ts.dayOfWeek % 8),
        bcdByte ts.dayOfMonth, monthByte ts.month ts.isCentury, bcdByte ts.year] := by
  obtain ⟨hs, hm, hh, -, hd, ho, hy⟩ := inContract_tenc_iff.1 h
  simp only [encodeTime, RegBytes.toList, bcd2_eq_bcdByte hs, bcd2_eq_bcdByte hm,
    hourPack_eq_hoursByte hh, dowPack_eq, bcd2_eq_bcdByte hd, monthPack_eq_monthByte ho,
    bcd2_eq_bcdByte hy]

theorem gives_tenc_plain {d : Bool} {s : State} (h : InContract (.tenc d) s.ts) :
    Gives (.tenc d) s (.bytes
      [bcdByte s.ts.seconds, bcdByte s.ts.minutes, hoursByte s.ts.hour,
        BitVec.ofNat 8 (s.ts.dayOfWeek % 8), bcdByte s.ts.dayOfMonth,
        monthByte s.ts.month s.ts.isCentury, bcdByte s.ts.year]) :=
  encodeTime_inContract h ▸ gives_tenc h

theorem decodeCmd_tenc_iff (c : Cmd) : (∃ d, decodeCmd c = .ok (.tenc d)) ↔ c.toNat % 16 = 0 := by
  simp only [decodeCmd_eq_ok_iff]
  revert c
  decide

/-- Settles O12: the contract splits on each field, and the worked example is in it. -/
theorem tencPacksTheTimeBlock : Obligations.TencPacksTheTimeBlock := by
  refine ⟨decodeCmd_tenc_iff, fun s d hs hm hh hw hd ho hy => ?_, fun s d h => ?_, fun s d h => ?_⟩
  · exact gives_tenc_plain (inContract_tenc_iff.2 ⟨hs, hm, hh, hw, hd, ho, hy⟩)
  · have out_of_contract : ¬ InContract (.tenc d) s.ts := by
      rw [inContract_tenc_iff]
      omega
    exact ⟨_, exec_not_inContract out_of_contract⟩
  · have hc : InContract (.tenc d) s.ts := by
      rw [inContract_tenc_iff, h]
      decide
    exact gives_iff.2 ⟨hc, by rw [resultOf_tenc, h]; rfl⟩

/-! ### The bits of TENC's bytes -/

/-- TENC's bytes by name, the form in which the statements give their bits. -/
theorem gives_tenc_bytes {d : Bool} {s : State} (h : InContract (.tenc d) s.ts) :
    Gives (.tenc d) s (.bytes
      [bcd2 s.ts.seconds, bcd2 s.ts.minutes, hourPack s.ts.hour, dowPack s.ts.dayOfWeek,
        bcd2 s.ts.dayOfMonth, monthPack s.ts.month s.ts.isCentury, bcd2 s.ts.year]) := gives_tenc h

theorem bcd2_high_nibble {v : Nat} (h : v < 100) : ((bcd2 v).extractLsb' 4 4).toNat = v / 10 := by
  rw [tens_bcd2 h]
  omega

theorem bcd2_low_nibble {v : Nat} (h : v < 100) : ((bcd2 v).extractLsb' 0 4).toNat = v % 10 :=
  ones_bcd2 h

theorem bcd2_bit7_eq_false {v : Nat} (h : v < 80) : (bcd2 v).getLsbD 7 = false :=
  Bool.eq_false_iff.2 (mt (bcd2_bit7 (by omega)).1 (by omega))

theorem bcd2_bit6_eq_false {v : Nat} (h : v < 40) : (bcd2 v).getLsbD 6 = false :=
  Bool.eq_false_iff.2 (mt (bcd2_bit6 (by omega)).1 (by omega))

theorem bcd2_bit5_eq_false {v : Nat} (h : v < 20) : (bcd2 v).getLsbD 5 = false :=
  Bool.eq_false_iff.2 (mt (bcd2_bit5 (by omega)).1 (by omega))

theorem monthPack_bit_of_lt {k : Nat} (hk : k < 7) (m : Nat) (c : Bool) :
    (monthPack m c).getLsbD k = (bcd2 m).getLsbD k := by
  simp [monthPack, centuryBit, BitVec.getLsbD_shiftLeft, hk]

/-- The flag bits a tens digit reaches in an hours byte, as 70_reset_and_hazards R134 has them. -/
def HourSpills (b : Byte) (hour : Hour) : Prop :=
  match hour with
  | .h24 v => (b.getLsbD 6 = true ↔ (40 ≤ v ∧ v ≤ 79)) ∧ (b.getLsbD 7 = true ↔ 80 ≤ v)
  | .h12 v pm => b.getLsbD 6 = true ∧
      (b.getLsbD 5 = true ↔ (pm = true ∨ v / 10 = 2 ∨ v / 10 = 3 ∨ v / 10 = 6 ∨ v / 10 = 7)) ∧
      (b.getLsbD 7 = true ↔ 80 ≤ v)

theorem hourPack_spills {h : Hour} (hv : h.value < 100) : HourSpills (hourPack h) h := by
  cases h with
  | h24 v => exact ⟨bcd2_bit6 hv, bcd2_bit7 hv⟩
  | h12 v pm =>
    have hv : v < 100 := hv
    obtain ⟨h7, h6, h5⟩ := hourPack_h12_bits v pm
    exact ⟨h6, by rw [h5, Bool.or_eq_true, bcd2_bit5 hv], by rw [h7, bcd2_bit7 hv]⟩

/-- Settles O24: each byte's flag bits, by the lemma for its packing. -/
theorem tencTensDigitsSpillOntoFlags : Obligations.TencTensDigitsSpillOntoFlags := by
  intro s d h
  obtain ⟨hs, hm, hh, -, hd, ho, -⟩ := inContract_tenc_iff.1 h
  refine ⟨_, _, _, _, _, _, _, gives_tenc_bytes h, bcd2_bit7 hs, bcd2_bit7 hm, hourPack_spills hh,
    toNat_dowPack _, bcd2_bit6 hd, bcd2_bit7 hd, ?_⟩
  rw [monthPack_bit7, Bool.or_eq_true, bcd2_bit7 ho]

/-! ### TDEC in plain numbers -/

/-- Settles O14: each primitive of the decoder in plain numbers. -/
theorem tdecUnpacksTheTimeBlock : Obligations.TdecUnpacksTheTimeBlock := by
  intro s d
  refine gives_iff.2 ⟨by simp [InContract, Instr.reads], ?_⟩
  simp only [resultOf_tdec, decodeTime, unbcd, monthUnpack, hourUnpack, ones_eq_mod, tensSec_eq,
    tensMin_eq, tensDom_eq, tensMonth_eq, tensYear_eq, tensHour24_eq, tensHour12_eq, dowUnpack_eq,
    is12Hour_eq, pmOf_eq, centuryOf_eq, decide_eq_true_eq]

/-! ### Ranges -/

theorem ones_le (b : Byte) : ones b ≤ 15 := by
  rw [ones_eq_mod]
  omega

/-- A decoded number is at most fifteen ones and the largest tens digit of its field. -/
theorem unbcd_ones_le {t m : Nat} (ht : t ≤ m) (b : Byte) : unbcd t (ones b) ≤ 15 + 10 * m :=
  Nat.add_le_add (ones_le b) (Nat.mul_le_mul_left 10 ht)

theorem bitField_le (b : Byte) (k n : Nat) : (b.extractLsb' k n).toNat ≤ 2 ^ n - 1 :=
  Nat.le_sub_one_of_lt (b.extractLsb' k n).isLt

theorem decodeTime_inRange (p : DecodeMaskProfile) (rb : RegBytes) :
    DecodedInRange p (decodeTime p rb) where
  seconds := by cases p <;> exact unbcd_ones_le (bitField_le _ _ _) _
  minutes := by cases p <;> exact unbcd_ones_le (bitField_le _ _ _) _
  hour24 h e := by
    simp only [decodeTime, hourUnpack] at e
    split at e
    · cases e
    · cases e
      exact unbcd_ones_le (bitField_le _ 4 2) _
  hour12 h pm e := by
    simp only [decodeTime, hourUnpack] at e
    split at e
    · cases e
      exact unbcd_ones_le (bitField_le _ 4 1) _
    · cases e
  dayOfWeek := bitField_le _ 0 3
  dayOfMonth := by cases p <;> exact unbcd_ones_le (bitField_le _ _ _) _
  month := by cases p <;> exact unbcd_ones_le (bitField_le _ _ _) _
  year := unbcd_ones_le (bitField_le _ 4 4) _

/-- Settles O15: the widths of the bit fields give the bounds, and the bytes named reach them. -/
theorem tdecStaysInItsRanges : Obligations.TdecStaysInItsRanges := by
  refine ⟨fun s d => ⟨_, gives_tdec s d, decodeTime_inRange _ _⟩, fun s d h => ?_, fun s d h => ?_⟩
  · have hdec : decodeTime s.profile s.rb = byProfile s.profile
        ⟨85, 85, .h12 25 true, 7, 45, 25, 165, true⟩
        ⟨165, 165, .h12 25 true, 7, 165, 85, 165, true⟩ := by
      rw [h]
      cases s.profile <;> rfl
    exact hdec ▸ gives_tdec s d
  · refine ⟨_, gives_tdec s d, ?_⟩
    rw [decodeTime, h]
    rfl

/-! ### Bits TDEC does not look at -/

theorem extractLsb'_congr {a b : Byte} {k n : Nat}
    (h : ∀ i, k ≤ i → i < k + n → a.getLsbD i = b.getLsbD i) :
    a.extractLsb' k n = b.extractLsb' k n := by
  apply BitVec.eq_of_getLsbD_eq
  intro i hi
  simp [BitVec.getLsbD_extractLsb', h (k + i) (by omega) (by omega)]

theorem ones_congr {a b : Byte} (h : ∀ k < 4, a.getLsbD k = b.getLsbD k) : ones a = ones b :=
  congrArg BitVec.toNat (extractLsb'_congr fun i _ hi => h i (by omega))

section
variable {p : DecodeMaskProfile} {a b : Byte}

theorem unbcd_tensSec_congr (h : ∀ k < byProfile p 7 8, a.getLsbD k = b.getLsbD k) :
    unbcd (tensSec p a) (ones a) = unbcd (tensSec p b) (ones b) := by
  cases p <;>
    exact congrArg₂ unbcd (congrArg BitVec.toNat (extractLsb'_congr fun i _ hi => h i hi))
      (ones_congr fun k hk => h k (Nat.lt_trans hk (by decide)))

theorem unbcd_tensDom_congr (h : ∀ k < byProfile p 6 8, a.getLsbD k = b.getLsbD k) :
    unbcd (tensDom p a) (ones a) = unbcd (tensDom p b) (ones b) := by
  cases p <;>
    exact congrArg₂ unbcd (congrArg BitVec.toNat (extractLsb'_congr fun i _ hi => h i hi))
      (ones_congr fun k hk => h k (Nat.lt_trans hk (by decide)))

theorem monthUnpack_congr (h : ∀ k < byProfile p 5 7, a.getLsbD k = b.getLsbD k) :
    monthUnpack p a = monthUnpack p b := by
  cases p <;>
    exact congrArg₂ unbcd (congrArg BitVec.toNat (extractLsb'_congr fun i _ hi => h i hi))
      (ones_congr fun k hk => h k (Nat.lt_trans hk (by decide)))

theorem hourUnpack_congr (h : ∀ k < 7, a.getLsbD k = b.getLsbD k) :
    hourUnpack a = hourUnpack b := by
  have hones : ones a = ones b := ones_congr fun k hk => h k (by omega)
  have htens (n : Nat) (hn : n ≤ 3) : a.extractLsb' 4 n = b.extractLsb' 4 n :=
    extractLsb'_congr fun i _ hi => h i (by omega)
  have h12 : tensHour12 a = tensHour12 b := congrArg BitVec.toNat (htens 1 (by decide))
  have h24 : tensHour24 a = tensHour24 b := congrArg BitVec.toNat (htens 2 (by decide))
  have hmode : is12Hour a = is12Hour b := h 6 (by decide)
  have hpm : pmOf a = pmOf b := h 5 (by decide)
  rw [hourUnpack, hourUnpack, hmode, hpm, hones, h12, h24]

/-- Bits below `m` under `Narrow`, and the one or two above them that `Wide` reads too. -/
theorem agree_below_succ {m : Nat} (h : ∀ k < m, a.getLsbD k = b.getLsbD k)
    (hw : p = .wide → a.getLsbD m = b.getLsbD m) :
    ∀ k < byProfile p m (m + 1), a.getLsbD k = b.getLsbD k := by
  cases p with
  | narrow => exact h
  | wide => exact Nat.forall_lt_succ_right.2 ⟨h, hw rfl⟩

theorem agree_below_add_two {m : Nat} (h : ∀ k < m, a.getLsbD k = b.getLsbD k)
    (hw : p = .wide → a.getLsbD m = b.getLsbD m ∧ a.getLsbD (m + 1) = b.getLsbD (m + 1)) :
    ∀ k < byProfile p m (m + 2), a.getLsbD k = b.getLsbD k := by
  cases p with
  | narrow => exact h
  | wide =>
    obtain ⟨hm, hm'⟩ := hw rfl
    exact Nat.forall_lt_succ_right.2 ⟨Nat.forall_lt_succ_right.2 ⟨h, hm⟩, hm'⟩

end

/-- Settles O16: each field is read from the bits its hypotheses name. -/
theorem tdecIgnoresUnreadBits : Obligations.TdecIgnoresUnreadBits := by
  intro s t d hp h0 h0w h1 h1w h2 h3 h4 h4w h5 h5w hc h6
  have same : decodeTime s.profile s.rb = decodeTime s.profile t.rb := by
    simp only [decodeTime]
    congr 1
    · exact unbcd_tensSec_congr (agree_below_succ h0 h0w)
    · exact unbcd_tensSec_congr (agree_below_succ h1 h1w)
    · exact hourUnpack_congr h2
    · exact congrArg BitVec.toNat (extractLsb'_congr fun i _ hi => h3 i (by omega))
    · exact unbcd_tensDom_congr (agree_below_add_two h4 h4w)
    · exact monthUnpack_congr (agree_below_add_two h5 h5w)
    · rw [h6]
  exact ⟨_, gives_tdec s d, by rw [same, hp]; exact gives_tdec t d⟩

/-! ### The bytes as written and as read -/

/-- Settles O17: the digits are the nibbles of the BCD byte, of which a profile reads some bits. -/
theorem bcdBytesHaveTensHighAndOnesLow : Obligations.BcdBytesHaveTensHighAndOnesLow := by
  refine ⟨fun s d h => ?_, fun s d => ⟨_, gives_tdec s d, ?_⟩⟩
  · obtain ⟨hs, hm, -, -, hd, -, hy⟩ := inContract_tenc_iff.1 h
    exact ⟨_, _, _, _, _, _, _, gives_tenc_bytes h, bcd2_high_nibble hs, bcd2_low_nibble hs,
      bcd2_high_nibble hm, bcd2_low_nibble hm, bcd2_high_nibble hd, bcd2_low_nibble hd,
      bcd2_high_nibble hy, bcd2_low_nibble hy, fun e => bcd2_bit7_eq_false (by omega),
      fun e => bcd2_bit7_eq_false (by omega),
      fun e => ⟨bcd2_bit7_eq_false (by omega), bcd2_bit6_eq_false (by omega)⟩⟩
  · cases s.profile <;> exact ⟨rfl, rfl, rfl, rfl⟩

/-- Settles O18: bit 7 is the flag's alone below month 80, and nothing below it is. -/
theorem monthByteCarriesTheCenturyFlag : Obligations.MonthByteCarriesTheCenturyFlag := by
  refine ⟨fun s d h hlt => ?_, fun s d => ⟨_, gives_tdec s d, rfl, ?_⟩, fun s t d hp hrb => ?_⟩
  · have ho : s.ts.month < 100 := by omega
    refine ⟨_, _, _, _, _, _, _, gives_tenc_bytes h, ?_, ?_, ?_, fun ⟨_, hle⟩ => ⟨?_, ?_⟩⟩
    · rw [monthPack_bit7, bcd2_bit7_eq_false hlt, Bool.or_false]
    · rw [monthPack_field _ _ (by decide), tens_bcd2 ho]
      omega
    · rw [monthPack_field _ _ (by decide), bcd2_low_nibble ho]
    · rw [monthPack_bit_of_lt (by decide), bcd2_bit6_eq_false (by omega)]
    · rw [monthPack_bit_of_lt (by decide), bcd2_bit5_eq_false (by omega)]
  · cases s.profile <;> rfl
  · have flag_only : ∀ k < 7, (0x80#8).getLsbD k = false := by decide
    refine ⟨_, _, gives_tdec s d, gives_tdec t d, ?_, ?_⟩
    · rw [← hp, hrb]
      refine monthUnpack_congr fun k hk => ?_
      have : k < 7 := by cases hq : s.profile <;> simp only [hq, byProfile] at hk <;> omega
      simp [flag_only k this]
    · simp [decodeTime, centuryOf, hrb]

/-- Settles O19: the flags are ORed onto a BCD byte whose tens digit leaves their bits 0. -/
theorem hoursByteCarriesModeAndMeridiem : Obligations.HoursByteCarriesModeAndMeridiem := by
  refine ⟨fun s d h hv => ?_, fun s d => ⟨_, gives_tdec s d, fun h6 => ?_, fun h6 => ?_⟩⟩
  · refine ⟨_, _, _, _, _, _, _, gives_tenc_bytes h, ?_⟩
    cases hh : s.ts.hour with
    | h24 v =>
      have hle : v ≤ 23 := valid_h24_iff.1 (hh ▸ hv)
      have hlt : v < 100 := by omega
      refine ⟨bcd2_bit7_eq_false (by omega), bcd2_bit6_eq_false (by omega), ?_, bcd2_low_nibble hlt⟩
      rw [hourPack, tens_bcd2 hlt]
      omega
    | h12 v pm =>
      obtain ⟨-, hle⟩ := valid_h12_iff.1 (hh ▸ hv)
      have hlt : v < 100 := by omega
      obtain ⟨h7, h6, h5⟩ := hourPack_h12_bits v pm
      obtain ⟨hones, htens⟩ := hourPack_h12_digits hlt pm
      refine ⟨h7.trans (bcd2_bit7_eq_false (by omega)), h6, ?_, htens.trans (by omega), hones⟩
      rw [h5, bcd2_bit5_eq_false (by omega), Bool.or_false]
  · simp only [decodeTime, hourUnpack, is12Hour, h6]
    rfl
  · simp only [decodeTime, hourUnpack, is12Hour, h6]
    rfl

/-! ### What the profiles share -/

theorem toNat_lt_of_bit7 {b : Byte} (h7 : b.getLsbD 7 = false) : b.toNat < 128 := by
  have := b.isLt
  rw [getLsbD_eq_decide, decide_eq_false_iff_not] at h7
  omega

theorem tensSec_of_bit7 {b : Byte} (h7 : b.getLsbD 7 = false) (p : DecodeMaskProfile) :
    tensSec p b = b.toNat / 16 := by
  have := toNat_lt_of_bit7 h7
  rw [tensSec_eq]
  cases p <;> simp only [byProfile] <;> omega

theorem tensDom_of_bits {b : Byte} (h7 : b.getLsbD 7 = false) (h6 : b.getLsbD 6 = false)
    (p : DecodeMaskProfile) : tensDom p b = b.toNat / 16 := by
  have := toNat_lt_of_bit7 h7
  rw [getLsbD_eq_decide, decide_eq_false_iff_not] at h6
  rw [tensDom_eq]
  cases p <;> simp only [byProfile] <;> omega

theorem tensMonth_of_bits {b : Byte} (h6 : b.getLsbD 6 = false) (h5 : b.getLsbD 5 = false)
    (p : DecodeMaskProfile) : tensMonth p b = b.toNat / 16 % 2 := by
  rw [getLsbD_eq_decide, decide_eq_false_iff_not] at h6 h5
  rw [tensMonth_eq]
  cases p with
  | narrow => rfl
  | wide =>
    simp only [byProfile]
    omega

/-- Settles O22: where the bits that only one profile reads are 0, both read the same digits. -/
theorem profilesAgreeOnEncodedBlocks : Obligations.ProfilesAgreeOnEncodedBlocks := by
  refine ⟨fun s t d hrb h0 h1 h47 h46 h56 h55 => ?_, fun s d hv => ?_⟩
  · have same : decodeTime s.profile s.rb = decodeTime t.profile s.rb := by
      simp only [decodeTime, monthUnpack, tensSec_of_bit7 h0, tensDom_of_bits h47 h46,
        tensMonth_of_bits h56 h55, show ∀ p, tensMin p s.rb.b1 = _ from tensSec_of_bit7 h1]
    exact ⟨_, gives_tdec s d, by rw [same, hrb]; exact gives_tdec t d⟩
  · obtain ⟨hs, hm, -, -, ⟨-, hd⟩, ⟨-, ho⟩, -⟩ := valid_iff.1 hv
    have hc : InContract (.tenc d) s.ts := (survivesDecoding_of_valid hv .narrow).1
    refine ⟨_, _, _, _, _, _, _, gives_tenc_bytes hc, bcd2_bit7_eq_false (by omega),
      bcd2_bit7_eq_false (by omega), bcd2_bit7_eq_false (by omega), bcd2_bit6_eq_false (by omega),
      ?_, ?_⟩
    · rw [monthPack_bit_of_lt (by decide), bcd2_bit6_eq_false (by omega)]
    · rw [monthPack_bit_of_lt (by decide), bcd2_bit5_eq_false (by omega)]

/-! ### TENC after TDEC -/

theorem decoded_eq_of_gives {s : State} {d : Bool} {dec : Timestamp}
    (h : Gives (.tdec d) s (.decoded dec)) : dec = decodeTime s.profile s.rb :=
  Result.decoded.inj (gives_iff.1 h).2

/-- Settles O23, by running both codecs on the two inputs. -/
theorem encodeAfterDecodeIsNotIdentity : Obligations.EncodeAfterDecodeIsNotIdentity := by
  intro s t d e dec hdec ht
  have hdec := decoded_eq_of_gives hdec
  refine ⟨fun hrb => ?_, fun hrb => ?_⟩
  · have hval : dec = ⟨0, 0, .h24 0, 0, 0, 0, 0, false⟩ := by
      rw [hdec, hrb]
      cases s.profile <;> rfl
    have hts := ht.trans hval
    refine ⟨congrArg Timestamp.hour hval, gives_iff.2 ⟨?_, ?_⟩⟩
    · rw [hts]
      exact inContract_tenc_iff.2 (by decide)
    · rw [resultOf_tenc, hts]
      rfl
  · have hval : dec = ⟨0, 0, .h24 0, 0, 0, 0, 100, false⟩ := by
      rw [hdec, hrb]
      cases s.profile <;> rfl
    have hts := ht.trans hval
    refine ⟨congrArg Timestamp.year hval, exec_eq_fault_iff.2 ⟨?_, ?_⟩⟩
    · rw [inContract_tenc_iff, hts]
      decide
    · rw [hts]
      rfl

end Sys2Proof.Machine
end

section
/-!
PROOFS. The Alarm Codec (41_alarm_codec R90 to R105): the block of each operation in plain numbers,
and the laws over all nine, which are about the byte of one position.
-/

namespace Sys2Proof.Machine

/-! ### One statement per operation -/

theorem toNat_selectorBit_or_dowPack (v : Nat) :
    (selectorBit ||| dowPack v).toNat = 64 + v % 8 := by
  rw [BitVec.toNat_or, toNat_dowPack]
  exact (Nat.shiftLeft_add_eq_or_of_lt (i := 6) (by omega) 1).symm

/-- The day form of the day/date byte in plain numbers. -/
theorem selectorBit_or_dowPack (v : Nat) :
    selectorBit ||| dowPack v = BitVec.ofNat 8 (64 + v % 8) := by
  apply BitVec.eq_of_toNat_eq
  rw [toNat_selectorBit_or_dowPack, BitVec.toNat_ofNat]
  omega

theorem gives_alarm {i : Instr} {ch : Channel} (h : i.channel = some ch) {s : State}
    (hc : InContract i s.ts) : Gives i s (.bytes (alarmBytes ch i.included s.ts i.dysel)) :=
  (gives_alarm_iff h).2 ⟨hc, rfl⟩

/-- Settles O25: the contract covers the seconds. -/
theorem a1SMatchesSeconds : Obligations.A1SMatchesSeconds := by
  intro s d hs
  rw [← bcd2_eq_bcdByte hs]
  have hc : InContract (.a1S d) s.ts := by simp [InContract, Instr.reads, fieldValue, hs]
  exact gives_alarm rfl hc

/-- Settles O26: the contract covers seconds and minutes. -/
theorem a1MsMatchesMinutesSeconds : Obligations.A1MsMatchesMinutesSeconds := by
  intro s d hs hm
  rw [← bcd2_eq_bcdByte hs, ← bcd2_eq_bcdByte hm]
  have hc : InContract (.a1Ms d) s.ts := by simp [InContract, Instr.reads, fieldValue, hs, hm]
  exact gives_alarm rfl hc

/-- Settles O27: the contract covers seconds, minutes and hours. -/
theorem a1HmsMatchesHoursMinutesSeconds : Obligations.A1HmsMatchesHoursMinutesSeconds := by
  intro s d hs hm hh
  rw [← bcd2_eq_bcdByte hs, ← bcd2_eq_bcdByte hm, ← hourPack_eq_hoursByte hh]
  have hc : InContract (.a1Hms d) s.ts := by simp [InContract, Instr.reads, fieldValue, hs, hm, hh]
  exact gives_alarm rfl hc

/-- Settles O28: the contract covers all four positions, the day form last. -/
theorem a1DhmsDayMatchesDayOfWeek : Obligations.A1DhmsDayMatchesDayOfWeek := by
  intro s hs hm hh hw
  rw [← bcd2_eq_bcdByte hs, ← bcd2_eq_bcdByte hm, ← hourPack_eq_hoursByte hh,
    ← selectorBit_or_dowPack]
  have hc : InContract .a1DhmsDay s.ts := by
    simp [InContract, Instr.reads, fieldValue, hs, hm, hh, hw]
  exact gives_alarm rfl hc

/-- Settles O29: the contract covers all four positions, the date form last. -/
theorem a1DhmsDateMatchesDayOfMonth : Obligations.A1DhmsDateMatchesDayOfMonth := by
  intro s hs hm hh hd
  rw [← bcd2_eq_bcdByte hs, ← bcd2_eq_bcdByte hm, ← hourPack_eq_hoursByte hh, ← bcd2_eq_bcdByte hd]
  have hc : InContract .a1DhmsDate s.ts := by
    simp [InContract, Instr.reads, fieldValue, hs, hm, hh, hd]
  exact gives_alarm rfl hc

/-- Settles O30: the contract covers the minutes. -/
theorem a2MMatchesMinutes : Obligations.A2MMatchesMinutes := by
  intro s d hm
  rw [← bcd2_eq_bcdByte hm]
  have hc : InContract (.a2M d) s.ts := by simp [InContract, Instr.reads, fieldValue, hm]
  exact gives_alarm rfl hc

/-- Settles O31: the contract covers minutes and hours. -/
theorem a2HmMatchesHoursMinutes : Obligations.A2HmMatchesHoursMinutes := by
  intro s d hm hh
  rw [← bcd2_eq_bcdByte hm, ← hourPack_eq_hoursByte hh]
  have hc : InContract (.a2Hm d) s.ts := by simp [InContract, Instr.reads, fieldValue, hm, hh]
  exact gives_alarm rfl hc

/-- Settles O32: the contract covers all three positions, the day form last. -/
theorem a2DhmDayMatchesDayOfWeek : Obligations.A2DhmDayMatchesDayOfWeek := by
  intro s hm hh hw
  rw [← bcd2_eq_bcdByte hm, ← hourPack_eq_hoursByte hh, ← selectorBit_or_dowPack]
  have hc : InContract .a2DhmDay s.ts := by simp [InContract, Instr.reads, fieldValue, hm, hh, hw]
  exact gives_alarm rfl hc

/-- Settles O33: the contract covers all three positions, the date form last. -/
theorem a2DhmDateMatchesDayOfMonth : Obligations.A2DhmDateMatchesDayOfMonth := by
  intro s hm hh hd
  rw [← bcd2_eq_bcdByte hm, ← hourPack_eq_hoursByte hh, ← bcd2_eq_bcdByte hd]
  have hc : InContract .a2DhmDate s.ts := by simp [InContract, Instr.reads, fieldValue, hm, hh, hd]
  exact gives_alarm rfl hc

/-! ### The byte of a position -/

theorem alarmBytes_getElem? {ch : Channel} {x : Position} {k : Nat} (h : blockIndex ch x = some k)
    (included : List Position) (ts : Timestamp) (d : Bool) :
    (alarmBytes ch included ts d)[k]? =
      some (if x ∈ included then packPosition ts d x else dontCare) := by
  cases ch <;> cases x <;> cases h <;> rfl

theorem alarmBytes_included {ch : Channel} {x : Position} {k : Nat} (h : blockIndex ch x = some k)
    {included : List Position} (hx : x ∈ included) (ts : Timestamp) (d : Bool) :
    (alarmBytes ch included ts d)[k]? = some (packPosition ts d x) := by
  rw [alarmBytes_getElem? h, if_pos hx]

theorem alarmBytes_excluded {ch : Channel} {x : Position} {k : Nat} (h : blockIndex ch x = some k)
    {included : List Position} (hx : x ∉ included) (ts : Timestamp) (d : Bool) :
    (alarmBytes ch included ts d)[k]? = some dontCare := by
  rw [alarmBytes_getElem? h, if_neg hx]

section
variable {i : Instr} {ch : Channel} {ts : Timestamp} {x : Position}

theorem inContract_of_validAlarm (h : i.validAlarm ts = true) : InContract i ts :=
  inContract_of_valid (List.all_eq_true.1 h)

theorem included_inContract (hch : i.channel = some ch) (h : InContract i ts)
    (hx : x ∈ i.included) : fieldValue ts (positionField i.dysel x) < 100 :=
  h _ (positionField_mem_reads hch hx)

theorem included_valid (hch : i.channel = some ch) (h : i.validAlarm ts = true)
    (hx : x ∈ i.included) : ts.fieldValid (positionField i.dysel x) = true :=
  List.all_eq_true.1 h _ (positionField_mem_reads hch hx)

end

/-! ### Flag bits of the day/date byte -/

theorem fieldValid_dayOfWeek_iff {ts : Timestamp} :
    ts.fieldValid .dayOfWeek = true ↔ 1 ≤ ts.dayOfWeek ∧ ts.dayOfWeek ≤ 7 := by
  simp [Timestamp.fieldValid]

theorem fieldValid_dayOfMonth_iff {ts : Timestamp} :
    ts.fieldValid .dayOfMonth = true ↔ 1 ≤ ts.dayOfMonth ∧ ts.dayOfMonth ≤ 31 := by
  simp [Timestamp.fieldValid]

theorem dayPack_bit7 (v : Nat) : (selectorBit ||| dowPack v).getLsbD 7 = false := by
  rw [getLsbD_eq_decide, toNat_selectorBit_or_dowPack, decide_eq_false_iff_not]
  omega

theorem dayPack_bit6 (v : Nat) : (selectorBit ||| dowPack v).getLsbD 6 = true := by
  rw [getLsbD_eq_decide, toNat_selectorBit_or_dowPack, decide_eq_true_iff]
  omega

/-- The selector bit of an included, valid day/date byte (41_alarm_codec R91). -/
theorem dayDatePack_bit6 {ts : Timestamp} {d : Bool}
    (h : ts.fieldValid (positionField d .dayDate) = true) : (dayDatePack ts d).getLsbD 6 = d := by
  cases d with
  | true => exact dayPack_bit6 ts.dayOfWeek
  | false =>
    obtain ⟨-, hle⟩ := fieldValid_dayOfMonth_iff.1 h
    exact bcd2_bit6_eq_false (by omega)

/-! ### Valid fields leave the don't-care bit and decode back -/

theorem positionField_ne_year (d : Bool) (x : Position) : positionField d x ≠ .year := by
  cases x <;> cases d <;> decide

theorem hourPack_bit7 (h : Hour) : (hourPack h).getLsbD 7 = (bcd2 h.value).getLsbD 7 := by
  cases h with
  | h24 v => rfl
  | h12 v pm => exact (hourPack_h12_bits v pm).1

theorem packPosition_bit7_of_valid {ts : Timestamp} {d : Bool} {x : Position}
    (h : ts.fieldValid (positionField d x) = true) : (packPosition ts d x).getLsbD 7 = false := by
  have hlt : fieldValue ts (positionField d x) < 80 :=
    Nat.lt_trans (fieldValue_lt_sixty_of_valid (positionField_ne_year d x) h) (by decide)
  cases x with
  | seconds | minutes => exact bcd2_bit7_eq_false hlt
  | hours => exact (hourPack_bit7 ts.hour).trans (bcd2_bit7_eq_false hlt)
  | dayDate =>
    cases d with
    | true => exact dayPack_bit7 ts.dayOfWeek
    | false => exact bcd2_bit7_eq_false hlt

theorem decodesBack_packPosition {p : DecodeMaskProfile} {ts : Timestamp} {d : Bool} {x : Position}
    (h : ts.fieldValid (positionField d x) = true) : DecodesBack p ts (packPosition ts d x) x := by
  have hlt := fieldValue_lt_of_valid h
  have hsixty := fieldValue_lt_sixty_of_valid (positionField_ne_year d x) h
  cases x with
  | seconds | minutes =>
    exact (unbcd_tensSec_bcd2_eq_iff hlt).2 (Nat.lt_of_lt_of_le hsixty (by cases p <;> decide))
  | hours => exact (hourUnpack_hourPack_eq_iff hlt).2 (hourSurvives_of_valid h)
  | dayDate =>
    have hsel : selectsDay (dayDatePack ts d) = d := dayDatePack_bit6 h
    rw [DecodesBack, packPosition, hsel]
    cases d with
    | true =>
      obtain ⟨-, hle⟩ := fieldValid_dayOfWeek_iff.1 h
      rw [if_pos rfl, dowUnpack_eq, dayDatePack, if_pos rfl, toNat_selectorBit_or_dowPack]
      omega
    | false =>
      obtain ⟨-, hle⟩ := fieldValid_dayOfMonth_iff.1 h
      rw [if_neg (by decide)]
      exact (unbcd_tensDom_bcd2_eq_iff hlt).2 (Nat.lt_of_le_of_lt hle (by cases p <;> decide))

/-! ### The laws -/

/-- Settles O35: an excluded byte is the don't-care byte, and a valid field stays below bit 7. -/
theorem dontCareBitsMarkExcludedFields : Obligations.DontCareBitsMarkExcludedFields := by
  intro i ch s hch hv
  refine ⟨_, gives_alarm hch (inContract_of_validAlarm hv), fun x k hk => ?_⟩
  by_cases hx : x ∈ i.included
  · refine ⟨_, alarmBytes_included hk hx _ _, ?_, fun h => absurd hx h⟩
    rw [packPosition_bit7_of_valid (included_valid hch hv hx)]
    exact iff_of_false Bool.false_ne_true (not_not_intro hx)
  · exact ⟨_, alarmBytes_excluded hk hx _ _, iff_of_true rfl hx, fun _ => rfl⟩

/-- Settles O36: position by position. -/
theorem includedFieldsDecodeBack : Obligations.IncludedFieldsDecodeBack := by
  intro i ch s p hch hv
  refine ⟨_, gives_alarm hch (inContract_of_validAlarm hv), fun x k hk hx => ?_⟩
  have hfield := included_valid hch hv hx
  refine ⟨_, alarmBytes_included hk hx _ _, decodesBack_packPosition hfield, ?_⟩
  rintro rfl
  exact dayDatePack_bit6 hfield

/-- The finer operation checks no field the coarser one does not. -/
theorem inContract_of_included_subset {i j : Instr} {ch : Channel} (hi : i.channel = some ch)
    (hj : j.channel = some ch) (hsub : i.included ⊆ j.included) (hd : i.dysel = j.dysel)
    {ts : Timestamp} (h : InContract j ts) : InContract i ts := by
  intro f hf
  rw [(contractCoversEncodedFields i).1 (by simp [Instr.isAlarm, hi])] at hf
  obtain ⟨x, hx, rfl⟩ := List.mem_map.1 hf
  rw [hd]
  exact included_inContract hj h (hsub hx)

/-- Settles O37: at a position both include, both bytes are the packed field. -/
theorem nestedPoliciesAgreeOnSharedFields : Obligations.NestedPoliciesAgreeOnSharedFields := by
  intro i j ch s t hi hj hsub hd hts hc
  have hci : InContract i s.ts := inContract_of_included_subset hi hj hsub hd (hts ▸ hc)
  refine ⟨_, _, gives_alarm hi hci, gives_alarm hj hc, fun x k hk hx => ?_⟩
  rw [alarmBytes_included hk hx, alarmBytes_included hk (hsub hx), hts, hd]

/-- Settles O38: the packed day/date byte carries it, the don't-care byte does not. -/
theorem selectorBitIsTheSelector : Obligations.SelectorBitIsTheSelector := by
  intro i ch s k hch hk hv
  have hgives := gives_alarm hch (inContract_of_validAlarm hv)
  by_cases hx : Position.dayDate ∈ i.included
  · refine ⟨_, _, hgives, alarmBytes_included hk hx _ _, ?_⟩
    rw [packPosition, dayDatePack_bit6 (included_valid hch hv hx)]
    simp [hx]
  · refine ⟨_, _, hgives, alarmBytes_excluded hk hx _ _, iff_of_false (by decide) fun h => hx h.1⟩

/-- Settles O39: both bytes are the packed hour. -/
theorem alarmHoursByteIsTheTimeCodecs : Obligations.AlarmHoursByteIsTheTimeCodecs := by
  intro i ch s t k d hch hx hk hci hct hh
  refine ⟨_, _, gives_alarm hch hci, gives_tenc_bytes hct, ?_, rfl⟩
  rw [alarmBytes_included hk hx, packPosition, hh]
  rfl

/-- Settles O40: each included byte is a packed field in contract. -/
theorem alarmTensDigitsSpillOntoFlags : Obligations.AlarmTensDigitsSpillOntoFlags := by
  intro i ch s hch hc
  refine ⟨_, gives_alarm hch hc, fun x k hk hx => ⟨_, alarmBytes_included hk hx _ _, ?_⟩⟩
  have hlt := included_inContract hch hc hx
  cases x with
  | seconds | minutes => exact bcd2_bit7 hlt
  | hours => exact hourPack_spills hlt
  | dayDate =>
    cases hd : i.dysel with
    | true => exact toNat_selectorBit_or_dowPack _
    | false =>
      rw [hd] at hlt
      exact ⟨bcd2_bit7 hlt, bcd2_bit6 hlt⟩

end Sys2Proof.Machine
end

section
/-!
PROOFS. The host steps WRITE and READ7 (30_encoding R71): what they store, where they fault, and
that what one stores the other reads back.
-/

namespace Sys2Proof.Machine

/-! ### WRITE -/

theorem outByte_of_lt {out : List Byte} {k : Nat} (h : k < out.length) :
    outByte (some (.bytes out)) k = .ok out[k] := by
  simp [outByte, definedBytes, h]

theorem outByte_undefined {r : Option Result} {k : Nat} (h : (definedBytes r).length ≤ k) :
    outByte r k = .error (.undefinedLane k) := by
  simp [outByte, h]

/-- A start as the statements give it: the literal address, or byte 0 of the output. -/
theorem startAddress_eq_ok {start : WriteStart} {out : List Byte} {a : Byte}
    (h : match start with | .literal x => x = a | .outByte0 => out[0]? = some a) :
    startAddress start (some (.bytes out)) = .ok a := by
  cases start with
  | literal x => exact congrArg Except.ok h
  | outByte0 =>
    have h : out[0]? = some a := h
    simp [startAddress, outByte, definedBytes, h]

theorem step_write {s : State} {start : WriteStart} {first : Nat} {rest : List HostStep}
    (hp : s.program = .write start first :: rest) :
    step s = hostWrite start first (s.withProgram rest) := step_program hp

section
variable {s : State} {out : List Byte} {start : WriteStart} {a : Byte} {first : Nat}
  {rest : List HostStep} (hp : s.program = .write start first :: rest)
  (hout : s.out = some (.bytes out)) (hfirst : first < out.length)
  (ha : startAddress start (some (.bytes out)) = .ok a)
include hp hout hfirst ha

/-- A WRITE inside output and image: each address of the block reads its byte, every other as
before. -/
theorem step_write_fits (hfit : a.toNat + (out.length - first) ≤ 0x13) :
    ∃ m, step s = .next { s with reg := m, program := rest } ∧
      ∀ x, Memory.read m x =
        if a.toNat ≤ x ∧ x < a.toNat + (out.length - first) then out[first + (x - a.toNat)]?
        else Memory.read s.reg x := by
  obtain ⟨m, hm⟩ := Memory.writeBytes_fits s.reg (a := a.toNat) (bs := out.drop first)
    (.inr (by rw [List.length_drop]; exact hfit))
  obtain ⟨-, hread, -⟩ := Memory.writeBytes_ok hm
  refine ⟨m, ?_, fun x => ?_⟩
  · rw [step_write hp]
    refine hostWrite_ok (a := a) (b := out[first]) ?_ ?_ ?_
    · rw [State.withProgram_out, hout, ha]
    · rw [State.withProgram_out, hout, outByte_of_lt hfirst]
    · rw [State.withProgram_reg, State.withProgram_out, hout]
      exact hm
  · rw [hread x, List.length_drop, List.getElem?_drop]

theorem step_write_outside (houtside : 0x13 < a.toNat + (out.length - first)) :
    step s = .fault (.outsideImage (max a.toNat 0x13)) := by
  have hbytes := Memory.writeBytes_outside s.reg (a := a.toNat) (bs := out.drop first)
    (by simpa using hfirst) (by rw [List.length_drop]; exact houtside)
  rw [step_write hp, hostWrite, State.withProgram_out, State.withProgram_reg, hout, ha,
    outByte_of_lt hfirst]
  simp only [bind, Except.bind, definedBytes, hbytes, harnessOutcome_error]
  rfl

end

/-- Settles O41: the start, the first lane and the last address all exist. -/
theorem writeStoresTheOutputBytes : Obligations.WriteStoresTheOutputBytes := by
  intro s out start a first rest hp hout hfirst hstart hfit
  obtain ⟨m, hstep, hread⟩ := step_write_fits hp hout hfirst (startAddress_eq_ok hstart) hfit
  refine ⟨m, hstep, fun j hj => ?_, fun x hx => ?_⟩
  · rw [hread, if_pos (by omega), Nat.add_sub_cancel_left]
  · rw [hread, if_neg (by omega)]

theorem step_write_undefined {s : State} {start : WriteStart} {a : Byte} {first : Nat}
    {rest : List HostStep} (hp : s.program = .write start first :: rest)
    (ha : startAddress start s.out = .ok a) (hlen : (definedBytes s.out).length ≤ first) :
    step s = .fault (.undefinedLane first) := by
  rw [step_write hp, hostWrite, State.withProgram_out, ha, outByte_undefined hlen]
  rfl

/-- Settles O42, check by check in the order the step makes them. -/
theorem writeFaultsOutsideOutputAndImage : Obligations.WriteFaultsOutsideOutputAndImage := by
  refine ⟨fun s x first rest hp hlen => ?_, fun s first rest hp hnil => ?_,
    fun s first rest hp hne hlen => ?_,
    fun s out start a first rest hp hout hfirst hstart h => ?_⟩
  · exact step_write_undefined hp rfl hlen
  · have hstart : startAddress .outByte0 s.out = .error (.undefinedLane 0) :=
      outByte_undefined (by simp [hnil])
    rw [step_write hp, hostWrite, State.withProgram_out, hstart]
    rfl
  · obtain ⟨a, as, hcons⟩ := List.exists_cons_of_ne_nil hne
    exact step_write_undefined (a := a) hp (by simp [startAddress, outByte, hcons]) hlen
  · exact step_write_outside hp hout hfirst (startAddress_eq_ok hstart) h

/-! ### READ7 -/

theorem read7_ok {m : Memory} {rb : RegBytes} (h : ∀ k < 7, Memory.read m k = rb.toList[k]?) :
    m.read7 = .ok rb := by
  have h0 : m.get 0 = .ok rb.b0 := Memory.get_ok (h 0 (by decide))
  have h1 : m.get 1 = .ok rb.b1 := Memory.get_ok (h 1 (by decide))
  have h2 : m.get 2 = .ok rb.b2 := Memory.get_ok (h 2 (by decide))
  have h3 : m.get 3 = .ok rb.b3 := Memory.get_ok (h 3 (by decide))
  have h4 : m.get 4 = .ok rb.b4 := Memory.get_ok (h 4 (by decide))
  have h5 : m.get 5 = .ok rb.b5 := Memory.get_ok (h 5 (by decide))
  have h6 : m.get 6 = .ok rb.b6 := Memory.get_ok (h 6 (by decide))
  simp only [Memory.read7, h0, h1, h2, h3, h4, h5, h6]
  rfl

/-- READ7 reads upward, so it faults at the first entry that is UNSET. -/
theorem read7_unset {m : Memory} {k : Nat} (hk : k < 7) (hnone : Memory.read m k = none)
    (hbelow : ∀ j < k, Memory.read m j ≠ none) : m.read7 = .error (.unsetRegister k) := by
  have hget : ∀ j < k, ∃ b, m.get j = .ok b := fun j hj => by
    obtain ⟨b, hb⟩ := Option.ne_none_iff_exists'.1 (hbelow j hj)
    exact ⟨b, Memory.get_ok hb⟩
  choose b hb using hget
  have hfault := Memory.get_unset hnone
  interval_cases k <;> simp [Memory.read7, hb, hfault, bind, Except.bind]

theorem step_read7 {s : State} {rest : List HostStep} (hp : s.program = .read7 :: rest) :
    step s = hostRead7 (s.withProgram rest) := step_program hp

theorem step_read7_ok {s : State} {rest : List HostStep} {rb : RegBytes}
    (hp : s.program = .read7 :: rest) (h : ∀ k < 7, Memory.read s.reg k = rb.toList[k]?) :
    step s = .next { s with rb := rb, program := rest } := by
  rw [step_read7 hp, hostRead7, State.withProgram_reg, read7_ok h]
  rfl

/-- Settles O43: READ7 makes its seven reads in ascending order. -/
theorem read7TakesTheTimeBlock : Obligations.Read7TakesTheTimeBlock := by
  refine fun s rest hp => ⟨fun rb h => step_read7_ok hp h, fun k hk hnone hbelow => ?_⟩
  rw [step_read7 hp, hostRead7, State.withProgram_reg, read7_unset hk hnone hbelow]
  rfl

/-! ### What WRITE stores is read back -/

/-- Settles O44: after the WRITE the seven addresses read the seven bytes. -/
theorem writtenTimeBlockReadsBack : Obligations.WrittenTimeBlockReadsBack := by
  intro s rb rest hp hout
  have hlen : rb.toList.length = 7 := rfl
  obtain ⟨m, hstep, hread⟩ := step_write_fits (a := 0x00#8) hp hout (by rw [hlen]; decide) rfl
    (by rw [hlen]; decide)
  refine ⟨m, hstep, step_read7_ok rfl fun k hk => ?_⟩
  rw [hread, if_pos (by simp [hlen, hk])]
  simp

/-- Where an alarm block lands, for either channel: the registers from its address byte on. -/
theorem step_write_alarm_block {ch : Channel} {s : State} {regs : List Byte} {rest : List HostStep}
    (hp : s.program = .write .outByte0 1 :: rest)
    (hout : s.out = some (.bytes (channelAddress ch :: regs)))
    (hlen : regs.length = (channelPositions ch).length) :
    ∃ m, step s = .next { s with reg := m, program := rest } ∧
      (∀ k < (channelPositions ch).length,
        Memory.read m ((channelAddress ch).toNat + k) = (channelAddress ch :: regs)[k + 1]? ∧
          ((channelAddress ch :: regs)[k + 1]?).isSome) ∧
      ∀ x, x < (channelAddress ch).toNat ∨
          (channelAddress ch).toNat + (channelPositions ch).length ≤ x →
        Memory.read m x = Memory.read s.reg x := by
  have hblock : (channelAddress ch :: regs).length - 1 = (channelPositions ch).length := hlen
  obtain ⟨m, hstep, hread⟩ := step_write_fits (a := channelAddress ch) hp hout
    (by cases ch <;> simp [hlen, channelPositions]) rfl (by rw [hblock]; cases ch <;> decide)
  rw [hblock] at hread
  refine ⟨m, hstep, fun k hk => ⟨?_, by simp [hlen, hk]⟩, fun x hx => ?_⟩
  · rw [hread, if_pos (by omega), Nat.add_sub_cancel_left, Nat.add_comm]
  · rw [hread, if_neg (by omega)]

/-- Settles O45: the block begins with its channel's address. -/
theorem alarmBlockLandsOnItsRegisters : Obligations.AlarmBlockLandsOnItsRegisters := by
  intro i ch s rest hp hch hc
  obtain ⟨regs, hbytes, hlen⟩ := alarmBytes_eq_cons ch i.included s.ts i.dysel
  obtain ⟨m, hstep, hblock, hother⟩ :=
    step_write_alarm_block (s := { s with out := some (.bytes (channelAddress ch :: regs)) })
      hp rfl hlen
  refine ⟨_, m, hbytes ▸ gives_alarm hch hc, hstep, ?_⟩
  cases ch with
  | alarm1 => exact ⟨hblock, hother⟩
  | alarm2 => exact ⟨hblock, hother⟩

end Sys2Proof.Machine
end

section
/-!
PROOFS. Steps (60_exceptions R117 to R124, 70_reset_and_hazards R128 to R131): what an evaluation of
the ports can do, the invariant, reset, and the record of failures along a run.
-/

namespace Sys2Proof.Machine

/-! ### An evaluation of the ports -/

theorem evaluatePorts_inContract {s : State} {i : Instr} (hd : decodeCmd s.cmd = .ok i)
    (hc : InContract i s.ts) : evaluatePorts s = .next (s.withOut (resultOf i s)) := by
  rw [evaluatePorts_ok hd, exec_inContract hc, recordOutcome_next]

theorem evaluatePorts_not_inContract {s : State} {i : Instr} (hd : decodeCmd s.cmd = .ok i)
    (hc : ¬ InContract i s.ts) :
    evaluatePorts s = .next (s.fail (.fieldRange s.cmd (offending i.reads s.ts))) := by
  rw [evaluatePorts_ok hd, exec_not_inContract hc, recordOutcome_fieldRange, encode_of_decodeCmd hd]

theorem evaluatePorts_reserved {s : State} (h : 9 ≤ s.cmd.toNat % 16) :
    evaluatePorts s = .next (s.fail (.reservedCommand s.cmd)) :=
  evaluatePorts_error (decodeCmd_reserved h)

/-- Everything an evaluation of the ports can do: it always has a next state, by a result or by a
failure that is recorded. -/
theorem evaluatePorts_cases (s : State) :
    (∃ i, evaluatePorts s = .next (s.withOut (resultOf i s))) ∨
    (∃ f : Failure, f.Legal ∧ evaluatePorts s = .next (s.fail f)) := by
  rcases Nat.lt_or_ge 8 (s.cmd.toNat % 16) with h | h
  · exact .inr ⟨.reservedCommand s.cmd, h, evaluatePorts_reserved h⟩
  · obtain ⟨i, hd⟩ := decodeCmd_unreserved h
    by_cases hc : InContract i s.ts
    · exact .inl ⟨i, evaluatePorts_inContract hd hc⟩
    · exact .inr ⟨.fieldRange s.cmd _, ⟨i, hd, offending_ne_nil hc, offending_sublist _ _⟩,
        evaluatePorts_not_inContract hd hc⟩

theorem resultOf_bytes_or_decoded (i : Instr) (s : State) :
    (∃ out, resultOf i s = .bytes out) ∨ ∃ dec, resultOf i s = .decoded dec := by
  obtain ⟨d, rfl⟩ | ⟨d, rfl⟩ | ⟨ch, hch⟩ := codec_cases i
  · exact .inl ⟨_, resultOf_tenc d s⟩
  · exact .inr ⟨_, resultOf_tdec d s⟩
  · exact .inl ⟨_, resultOf_alarm hch s⟩

/-! ### One step -/

theorem recordOutcome_of_next {s u : State} {i : Instr} (h : exec i s = .next u) :
    recordOutcome s (exec i s) = .next u := by
  rw [h, recordOutcome_next]

theorem recordOutcome_of_fieldRange {s : State} {i : Instr} {c : Cmd} {fields : List Field}
    (h : exec i s = .fault (.fieldRange c fields)) :
    recordOutcome s (exec i s) = .next (afterFailure s (.fieldRange c fields)) := by
  rw [h, recordOutcome_fieldRange, State.fail]

/-- Settles O3: with no program left a step evaluates the ports. -/
theorem stepEvaluatesTheDecodedOperation : Obligations.StepEvaluatesTheDecodedOperation := by
  intro s i hp hd
  rw [step_ports hp, evaluatePorts_ok hd]
  exact ⟨fun _ => recordOutcome_of_next, fun _ _ => recordOutcome_of_fieldRange⟩

/-- Settles O6: presenting a word leaves no program step before its evaluation. -/
theorem fetchWordIsEvaluatedNext : Obligations.FetchWordIsEvaluatedNext := by
  intro s nbits w i h
  obtain ⟨-, hw⟩ := decodeTableWord_eq_some_iff.1 h
  obtain ⟨hnext, hfault⟩ :=
    stepEvaluatesTheDecodedOperation (s.withFetchWord nbits w) i rfl (decodeCmd_eq_ok_iff.2 hw)
  exact ⟨rfl, rfl, rfl, rfl, rfl, rfl, hnext, hfault⟩

/-- Settles O4: the ports evaluated are those the program's evaluation drives. -/
theorem programEvaluationPresentsItsInputs : Obligations.ProgramEvaluationPresentsItsInputs := by
  intro s cmd ts rb rest i hp hd
  refine ⟨_, presented_drive s cmd ts rb rest, ?_⟩
  rw [step_evaluate hp hd]
  exact ⟨fun _ => recordOutcome_of_next, fun _ _ => recordOutcome_of_fieldRange⟩

/-- Settles O5: the decoder refuses the word before anything else is looked at. -/
theorem reservedCommandIsRefusedAndRecorded : Obligations.ReservedCommandIsRefusedAndRecorded := by
  refine ⟨fun s hp h => ?_, fun s cmd ts rb rest hp h => ?_, fun _ => rfl⟩
  · exact (step_ports hp).trans (evaluatePorts_reserved h)
  · exact ⟨_, presented_drive s cmd ts rb rest, (step_program hp).trans (evaluatePorts_reserved h)⟩

/-! ### Assembled lines -/

theorem driveTs_ofTimestamp (free ts : Timestamp) : driveTs free (.ofTimestamp ts) = ts := rfl

/-- Settles O46: each line is an evaluation of its operation on the operands it presents. -/
theorem assembledLinesRunTheirOperation : Obligations.AssembledLinesRunTheirOperation := by
  refine ⟨fun s ts rest hp => ?_, fun s rb rest hp => ?_, fun s op ts rest hp => ?_⟩
  · have hstep := step_evaluate (i := .tenc false) hp rfl
    refine ⟨_, presented_drive s _ _ _ rest, driveTs_ofTimestamp _ ts, fun hc => ?_, fun hc => ?_⟩
    · rw [hstep, gives_tenc_plain (by exact hc)]
      rfl
    · have hfault := exec_not_inContract (i := .tenc false)
        (s := (s.withProgram rest).drive 0x00#5 (.ofTimestamp ts) .asRead) hc
      refine ⟨_, hfault, ?_⟩
      exact hstep.trans (recordOutcome_of_fieldRange hfault)
  · refine ⟨_, _, presented_drive s _ _ rb rest, gives_tdec _ false, ?_⟩
    exact step_evaluate (i := .tdec false) hp rfl
  · obtain ⟨t, hpres, hnext, hfault⟩ :=
      programEvaluationPresentsItsInputs s (encode op) ts .asRead rest op hp (decodeCmd_encode op)
    exact ⟨_, t, decodeCmd_encode op, hpres, hnext, hfault⟩

/-! ### Every step: profile, record, registers -/

/-- What an evaluation of the ports leaves alone, and its one effect on the record. -/
theorem evaluatePorts_frame {s t : State} (h : evaluatePorts s = .next t) :
    t.profile = s.profile ∧ t.reg = s.reg ∧
      (t.recorded = s.recorded ∨
        ∃ f, t.recorded = s.recorded ++ [f] ∧ t.out = some (.failed f)) := by
  obtain ⟨i, he⟩ | ⟨f, -, he⟩ := evaluatePorts_cases s
  · obtain rfl := Host.Outcome.next.inj (he ▸ h)
    exact ⟨rfl, rfl, .inl rfl⟩
  · obtain rfl := Host.Outcome.next.inj (he ▸ h)
    exact ⟨rfl, rfl, .inr ⟨f, rfl, rfl⟩⟩

/-- Settles O47: only an evaluation touches the record, and no step the profile. -/
theorem stepKeepsProfileAndRecord : Obligations.StepKeepsProfileAndRecord := by
  intro s t h
  obtain ⟨-, he⟩ | ⟨cmd, ts, rb, rest, -, he⟩ | ⟨_, _, rest, _, m, -, -, -, rfl⟩ |
    ⟨rest, rb, -, -, rfl⟩ := step_cases h
  · obtain ⟨hp, -, hr⟩ := evaluatePorts_frame he
    exact ⟨hp, hr⟩
  · obtain ⟨hp, -, hr⟩ := evaluatePorts_frame he
    exact ⟨hp, hr⟩
  · exact ⟨rfl, .inl rfl⟩
  · exact ⟨rfl, .inl rfl⟩

/-- Settles O48: evaluation and READ7 leave the register image alone. -/
theorem onlyWriteChangesRegisters : Obligations.OnlyWriteChangesRegisters := by
  intro s t h hno a
  obtain ⟨-, he⟩ | ⟨cmd, ts, rb, rest, -, he⟩ | ⟨_, _, rest, _, m, hp, -⟩ |
    ⟨rest, rb, -, -, rfl⟩ := step_cases h
  · obtain ⟨-, hreg, -⟩ := evaluatePorts_frame he
    rw [hreg]
  · obtain ⟨-, hreg, -⟩ := evaluatePorts_frame he
    rw [hreg, State.drive_reg, State.withProgram_reg]
  · exact absurd hp (hno _ _ _)
  · rfl

theorem evaluatePorts_result (s : State) :
    ∃ t, evaluatePorts s = .next t ∧
      ((∃ out, t.out = some (.bytes out) ∧ t.recorded = s.recorded) ∨
       (∃ dec, t.out = some (.decoded dec) ∧ t.recorded = s.recorded) ∨
       (∃ f, t.out = some (.failed f) ∧ t.recorded = s.recorded ++ [f])) := by
  obtain ⟨i, he⟩ | ⟨f, -, he⟩ := evaluatePorts_cases s
  · obtain ⟨out, hr⟩ | ⟨dec, hr⟩ := resultOf_bytes_or_decoded i s
    · exact ⟨_, he, .inl ⟨out, congrArg some hr, rfl⟩⟩
    · exact ⟨_, he, .inr (.inl ⟨dec, congrArg some hr, rfl⟩)⟩
  · exact ⟨_, he, .inr (.inr ⟨f, rfl, rfl⟩)⟩

/-- Settles O49: an evaluation of the ports always has a next state. -/
theorem evaluationNeverStops : Obligations.EvaluationNeverStops := by
  rintro s (hp | ⟨cmd, ts, rb, rest, hp⟩)
  · rw [step_ports hp]
    exact evaluatePorts_result s
  · rw [step_program hp]
    exact evaluatePorts_result ((s.withProgram rest).drive cmd ts rb)

/-! ### The invariant -/

theorem resultOf_legal (i : Instr) (s : State) (recorded : List Failure) :
    ResultLegal s.profile recorded (some (resultOf i s)) := by
  obtain ⟨d, rfl⟩ | ⟨d, rfl⟩ | ⟨ch, hch⟩ := codec_cases i
  · exact .inl rfl
  · exact decodeTime_inRange s.profile s.rb
  · rw [resultOf_alarm hch]
    cases ch with
    | alarm1 => exact .inr (.inl ⟨alarmBytes_length _ _ _ _, rfl⟩)
    | alarm2 => exact .inr (.inr ⟨alarmBytes_length _ _ _ _, rfl⟩)

/-- The invariant looks at four fields. -/
theorem inv_congr {s t : State} (hreg : t.reg = s.reg) (hprofile : t.profile = s.profile)
    (hout : t.out = s.out) (hrecorded : t.recorded = s.recorded) (h : s.Inv) : t.Inv :=
  ⟨hreg ▸ h.reg, hprofile ▸ hout ▸ hrecorded ▸ h.out, hrecorded ▸ h.recorded⟩

theorem evaluatePorts_inv {s t : State} (hs : s.Inv) (h : evaluatePorts s = .next t) : t.Inv := by
  obtain ⟨i, he⟩ | ⟨f, hf, he⟩ := evaluatePorts_cases s
  · obtain rfl := Host.Outcome.next.inj (he ▸ h)
    exact ⟨hs.reg, resultOf_legal i s s.recorded, hs.recorded⟩
  · obtain rfl := Host.Outcome.next.inj (he ▸ h)
    refine ⟨hs.reg, List.mem_append_right _ (List.mem_singleton_self f), fun g hg => ?_⟩
    rcases List.mem_append.1 hg with hg | hg
    · exact hs.recorded g hg
    · exact List.mem_singleton.1 hg ▸ hf

/-- Settles O50, by what a step can do: an evaluation adds a legal result or failure, WRITE keeps
the canonical form, READ7 touches nothing of it. -/
theorem stepKeepsInvariant : Obligations.StepKeepsInvariant := by
  intro s t hs h
  obtain ⟨-, he⟩ | ⟨cmd, ts, rb, rest, -, he⟩ | ⟨_, _, rest, _, m, -, -, hm, rfl⟩ |
    ⟨rest, rb, -, -, rfl⟩ := step_cases h
  · exact evaluatePorts_inv hs he
  · have hdriven : ((s.withProgram rest).drive cmd ts rb).Inv :=
      inv_congr (s := s) rfl rfl rfl rfl hs
    exact evaluatePorts_inv hdriven he
  · exact ⟨(Memory.writeBytes_ok hm).2.2 hs.reg, hs.out, hs.recorded⟩
  · exact inv_congr (s := s) rfl rfl rfl rfl hs

/-! ### Reset -/

/-- Settles O51: nothing is stored, given or recorded. -/
theorem resetMeetsInvariant : Obligations.ResetMeetsInvariant :=
  ⟨Memory.wf_nil, trivial, nofun⟩

/-- Settles O52: by the fields of the reset state. -/
theorem resetLeavesNothingWritten : Obligations.ResetLeavesNothingWritten :=
  ⟨Memory.read_nil, rfl, rfl, rfl⟩

/-- The zeros at the input ports after reset are in every operation's contract (log entry 2). -/
theorem reset_inContract (i : Instr) : InContract i State.reset.ts := by
  intro f _
  cases f <;> decide

/-- Settles O53: the word decodes and the ports are in contract, or it is refused. -/
theorem firstEvaluationIsDefined : Obligations.FirstEvaluationIsDefined := by
  intro w hw
  have hmod : (BitVec.ofNat 5 w).toNat % 16 = w % 16 := by
    rw [BitVec.toNat_ofNat]
    omega
  have hstep := step_ports (s := State.reset.withFetchWord 8 w) rfl
  rcases Nat.lt_or_ge 8 (w % 16) with h | h
  · exact ⟨_, hstep.trans (evaluatePorts_reserved (hmod.symm ▸ h)), fun h' => absurd h (by omega),
      fun _ => ⟨rfl, rfl⟩⟩
  · obtain ⟨i, hd⟩ := decodeCmd_unreserved (c := BitVec.ofNat 5 w) (hmod.symm ▸ h)
    have hc : InContract i (State.reset.withFetchWord 8 w).ts := reset_inContract i
    have hword := decodeTableWord_eq_some_iff (nbits := 8).2 ⟨hw, encode_of_decodeCmd hd⟩
    exact ⟨_, hstep.trans (evaluatePorts_inContract hd hc),
      fun _ => ⟨i, _, hword, gives_inContract hc, rfl, rfl⟩, fun h' => absurd h' (by omega)⟩

/-! ### Runs -/

section
variable {M : Host.Core} {n k : Nat} {s t : M.State}

theorem run_zero_iff : M.run 0 s = .next t ↔ s = t := ⟨Host.Outcome.next.inj, congrArg _⟩

theorem run_succ_iff :
    M.run (k + 1) s = .next t ↔ ∃ u, M.step s = .next u ∧ M.run k u = .next t := by
  rw [Host.Core.run]
  cases M.step s with
  | next u => exact ⟨fun h => ⟨u, rfl, h⟩, fun ⟨_, hu, h⟩ => Host.Outcome.next.inj hu ▸ h⟩
  | fault f => exact ⟨nofun, nofun⟩
  | refused r => exact ⟨nofun, nofun⟩

/-- A run of `n + k` steps is one of `n` and one of `k`. -/
theorem run_add_iff :
    M.run (n + k) s = .next t ↔ ∃ u, M.run n s = .next u ∧ M.run k u = .next t := by
  induction n generalizing s with
  | zero => simp only [Nat.zero_add, run_zero_iff, exists_eq_left']
  | succ n ih =>
    rw [Nat.succ_add_eq_add_succ, Nat.add_succ, run_succ_iff]
    simp only [ih, run_succ_iff]
    constructor
    · rintro ⟨v, hstep, u, hn, hk⟩
      exact ⟨u, ⟨v, hstep, hn⟩, hk⟩
    · rintro ⟨u, ⟨v, hstep, hn⟩, hk⟩
      exact ⟨v, hstep, u, hn, hk⟩

end

theorem step_recorded_isPrefix {s t : State} (h : step s = .next t) :
    s.recorded <+: t.recorded := by
  obtain ⟨-, hr | ⟨f, hr, -⟩⟩ := stepKeepsProfileAndRecord s t h
  · rw [hr]
  · exact ⟨[f], hr.symm⟩

/-- Every step keeps the profile and what is on record, so every run does. -/
theorem runsTo_keeps {n : Nat} {s t : State} (h : RunsTo n s t) :
    t.profile = s.profile ∧ s.recorded <+: t.recorded := by
  induction n generalizing s with
  | zero =>
    obtain rfl := run_zero_iff.1 h
    exact ⟨rfl, [], List.append_nil _⟩
  | succ n ih =>
    obtain ⟨u, hstep, hrun⟩ := run_succ_iff.1 h
    obtain ⟨hprofile, -⟩ := stepKeepsProfileAndRecord s u hstep
    obtain ⟨hp, hr⟩ := ih hrun
    exact ⟨hp.trans hprofile, (step_recorded_isPrefix hstep).trans hr⟩

/-- Settles O54: the record only grows, so one that is unchanged at the end was so on the way. -/
theorem recordedFailuresSurviveEveryRun : Obligations.RecordedFailuresSurviveEveryRun := by
  intro n k s t h
  obtain ⟨u, hu, ht⟩ := run_add_iff.1 h
  obtain ⟨hpu, hru⟩ := runsTo_keeps hu
  obtain ⟨hpt, hrt⟩ := runsTo_keeps ht
  refine ⟨u, hu, ht, hpu, hpt.trans hpu, hru, hrt, fun hclean => ?_⟩
  have hsame : u.recorded = s.recorded :=
    ((hclean ▸ hrt).eq_of_length_le hru.length_le)
  exact ⟨⟨u, hu, hsame⟩, t, ht, hclean.trans hsame.symm⟩

end Sys2Proof.Machine
end
